-- ==== Sys2Proof/Word.lean ====
section
/-! DEFINITION. The machine's word and byte (00_scope.md R10, R11). -/

namespace Sys2Proof

/-- A u32: every register, address, operand and result (00_scope.md R10). -/
abbrev Word := BitVec 32

/-- One byte of Memory or of the instruction stream. -/
abbrev Byte := BitVec 8

end Sys2Proof
end

