-- ==== Sys2Proof/Syntax.lean ====
section
/-! DEFINITION. The instructions: one constructor per row of spec/opcode_table.json (30_encoding.md R97), in the table's
order. Fields are the operands in Intel order, destination first (00_scope.md R13). -/

namespace Sys2Proof

/-- The eight general registers, in the fixed order of 10_state.md R20. -/
inductive Reg where
  | eax | ecx | edx | ebx | esp | ebp | esi | edi
deriving DecidableEq, Repr

/-- A displacement as the instruction holds it: disp8 (mod 01) or disp32 (mod 10) (30_encoding.md R87 to R90). -/
inductive Disp where
  | d8 (d : Byte)
  | d32 (d : Word)
deriving DecidableEq, Repr

/-- A memory operand in a memory mode (30_encoding.md R86 to R90): a base register and a displacement. `sib` says that
the base is named by a SIB byte (scale 0, index 100) and not by ModRM.rm; the two spellings of one address are two
encodings, so the instruction keeps which one it is (DESIGN CHOICE, log entry 13). -/
structure MemOp where
  sib  : Bool
  base : Reg
  disp : Disp
deriving DecidableEq, Repr

/-- The 40 instruction forms of 30_encoding.md R97. -/
inductive Instr where
  | addRR (rm reg : Reg)                -- 01 /r reg   R210
  | addMR (m : MemOp) (reg : Reg)       -- 01 /r mem   R211
  | addRM (reg : Reg) (m : MemOp)       -- 03 /r mem   R212
  | addEaxImm32 (imm : Word)            -- 05          R213
  | subRR (rm reg : Reg)                -- 29 /r reg   R217
  | subMR (m : MemOp) (reg : Reg)       -- 29 /r mem   R218
  | subRM (reg : Reg) (m : MemOp)       -- 2B /r mem   R219
  | subEaxImm32 (imm : Word)            -- 2D          R220
  | xorRR (rm reg : Reg)                -- 31 /r reg   R225
  | cmpRM (reg : Reg) (m : MemOp)       -- 3B /r mem   R226
  | pushR (r : Reg)                     -- 50+r        R198
  | popR (r : Reg)                      -- 58+r        R201
  | pushImm8 (imm : Byte)               -- 6A          R199
  | jzRel8 (rel : Byte)                 -- 74          R245
  | jnzRel8 (rel : Byte)                -- 75          R246
  | jngRel8 (rel : Byte)                -- 7E          R248
  | jgRel8 (rel : Byte)                 -- 7F          R247
  | addRImm32 (rm : Reg) (imm : Word)   -- 81 /0 reg   R214
  | subRImm32 (rm : Reg) (imm : Word)   -- 81 /5 reg   R221
  | addRImm8 (rm : Reg) (imm : Byte)    -- 83 /0 reg   R215
  | addMImm8 (m : MemOp) (imm : Byte)   -- 83 /0 mem   R216
  | andRImm8 (rm : Reg) (imm : Byte)    -- 83 /4 reg   R224
  | subRImm8 (rm : Reg) (imm : Byte)    -- 83 /5 reg   R222
  | subMImm8 (m : MemOp) (imm : Byte)   -- 83 /5 mem   R223
  | cmpRImm8 (rm : Reg) (imm : Byte)    -- 83 /7 reg   R227
  | cmpMImm8 (m : MemOp) (imm : Byte)   -- 83 /7 mem   R228
  | movRR (rm reg : Reg)                -- 89 /r reg   R193
  | movMR (m : MemOp) (reg : Reg)       -- 89 /r mem   R194
  | movRM (reg : Reg) (m : MemOp)       -- 8B /r mem   R195
  | lea (reg : Reg) (m : MemOp)         -- 8D /r mem   R197
  | nop                                 -- 90          R251
  | movRImm32 (r : Reg) (imm : Word)    -- B8+r        R192
  | ret                                 -- C3          R241
  | movMImm32 (m : MemOp) (imm : Word)  -- C7 /0 mem   R196
  | shrR (rm : Reg)                     -- D1 /5 reg   R229
  | callRel32 (rel : Word)              -- E8          R240
  | jmpRel8 (rel : Byte)                -- EB          R243
  | pushM (m : MemOp)                   -- FF /6 mem   R200
  | jzRel32 (rel : Word)                -- 0F 84       R249
  | jnzRel32 (rel : Word)               -- 0F 85       R250
deriving DecidableEq, Repr

end Sys2Proof
end

