-- ==== Sys2Proof/WellFormed.lean ====
section
/-! DEFINITION. Which instructions have an encoding. There is one check: without a SIB byte the base register stands in
ModRM.rm, where 100 does not name ESP but says that a SIB byte follows (30_encoding.md R83, R86). -/

namespace Sys2Proof

/-- A memory operand has an encoding unless it names ESP as base without a SIB byte (30_encoding.md R86). -/
def MemOp.wf (m : MemOp) : Bool := m.sib || decide (m.base ≠ .esp)

/-- The memory operand of an instruction that has one. -/
def Instr.memOp? : Instr → Option MemOp
  | .addMR m _ => some m
  | .addRM _ m => some m
  | .subMR m _ => some m
  | .subRM _ m => some m
  | .cmpRM _ m => some m
  | .addMImm8 m _ => some m
  | .subMImm8 m _ => some m
  | .cmpMImm8 m _ => some m
  | .movMR m _ => some m
  | .movRM _ m => some m
  | .lea _ m => some m
  | .movMImm32 m _ => some m
  | .pushM m => some m
  | .addRR _ _ => none
  | .addEaxImm32 _ => none
  | .subRR _ _ => none
  | .subEaxImm32 _ => none
  | .xorRR _ _ => none
  | .pushR _ => none
  | .popR _ => none
  | .pushImm8 _ => none
  | .jzRel8 _ => none
  | .jnzRel8 _ => none
  | .jngRel8 _ => none
  | .jgRel8 _ => none
  | .addRImm32 _ _ => none
  | .subRImm32 _ _ => none
  | .addRImm8 _ _ => none
  | .andRImm8 _ _ => none
  | .subRImm8 _ _ => none
  | .cmpRImm8 _ _ => none
  | .movRR _ _ => none
  | .nop => none
  | .movRImm32 _ _ => none
  | .ret => none
  | .shrR _ => none
  | .callRel32 _ => none
  | .jmpRel8 _ => none
  | .jzRel32 _ => none
  | .jnzRel32 _ => none

/-- An instruction is well formed when its memory operand, if it has one, is. Every other field is of a type whose
every value the encoding admits. -/
def Instr.wf (i : Instr) : Bool :=
  match i.memOp? with
  | some m => m.wf
  | none => true

end Sys2Proof
end

