-- ==== Sys2Proof/Decode.lean ====
section
/-! DEFINITION. The decoder of 30_encoding.md and 41_dispatch.md R162, total on any bytes, and the encoder written from
the same tables. The decoder reads a list of bytes and consumes them in the order of 30_encoding.md R96, so the first
failing check gives the rejection (R109). -/

namespace Sys2Proof

/-! ## Bytes and words -/

/-- Byte `k` of a word, counted from the least significant (20_memory.md R55). -/
def byteOf (w : Word) (k : Nat) : Byte := w.extractLsb' (8 * k) 8

/-- The word of four bytes, the first the least significant (20_memory.md R53, 30_encoding.md R82). -/
def wordOf (b0 b1 b2 b3 : Byte) : Word := b3 ++ b2 ++ b1 ++ b0

/-- The four bytes of a word in address order (20_memory.md R58). -/
def bytesOf (w : Word) : List Byte := [byteOf w 0, byteOf w 1, byteOf w 2, byteOf w 3]

/-! ## Register numbers, ModRM and SIB -/

/-- The 3-bit number of a register (30_encoding.md R84). -/
def Reg.num : Reg → BitVec 3
  | .eax => 0
  | .ecx => 1
  | .edx => 2
  | .ebx => 3
  | .esp => 4
  | .ebp => 5
  | .esi => 6
  | .edi => 7

/-- The register of a 3-bit number (30_encoding.md R84). -/
def Reg.ofNum (n : BitVec 3) : Reg :=
  match n.toNat with
  | 0 => .eax
  | 1 => .ecx
  | 2 => .edx
  | 3 => .ebx
  | 4 => .esp
  | 5 => .ebp
  | 6 => .esi
  | _ => .edi

/-- Bits 7:6 of a byte: ModRM.mod (30_encoding.md R83), SIB.scale (R85). -/
def field76 (b : Byte) : BitVec 2 := b.extractLsb' 6 2

/-- Bits 5:3 of a byte: ModRM.reg (30_encoding.md R83), SIB.index (R85). -/
def field53 (b : Byte) : BitVec 3 := b.extractLsb' 3 3

/-- Bits 2:0 of a byte: ModRM.rm (30_encoding.md R83), SIB.base (R85), the register of a "+r" opcode (R84). -/
def field20 (b : Byte) : BitVec 3 := b.extractLsb' 0 3

/-- A byte from its three fields, as ModRM and SIB bytes are laid out. -/
def packByte (hi : BitVec 2) (mid lo : BitVec 3) : Byte := hi ++ mid ++ lo

/-- A "+r" opcode: five fixed bits and the register number (30_encoding.md R84). -/
def plusR (hi : BitVec 5) (r : Reg) : Byte := hi ++ r.num

/-! ## What decoding answers -/

/-- Why no instruction was decoded. Each names the bytes that the fault record carries. -/
inductive DecodeError where
  /-- The opcode or sub-opcode has no row: 60_exceptions.md R263. -/
  | unsupportedOpcode (bytes : List Byte)
  /-- The mode or the SIB combination is not admitted: 60_exceptions.md R264. -/
  | unsupportedAddressingMode (bytes : List Byte)
  /-- The bytes end where one more is needed; `bytes` are those fetched before: 60_exceptions.md R265. -/
  | truncated (bytes : List Byte)
deriving DecidableEq, Repr

/-- The outcome of decoding: an instruction with the bytes that follow it, or one rejection (30_encoding.md R108). -/
inductive DecodeResult where
  | instr (i : Instr) (rest : List Byte)
  | reject (e : DecodeError)
deriving DecidableEq, Repr

/-! ## The opcode map (30_encoding.md R97) -/

/-- What follows the opcode and addressing bytes of a row: nothing, one byte or four (30_encoding.md R95), and the
instruction they complete. -/
inductive Tail where
  | none (i : Instr)
  | imm8 (f : Byte → Instr)
  | imm32 (f : Word → Instr)

/-- The rows of one opcode and sub-opcode: the "reg" row and the "mem" row, each where there is one. -/
structure Rows where
  reg : Option (Reg → Tail)
  mem : Option (MemOp → Tail)

/-- The rows of a ModRM opcode whose ModRM.reg field is `n`: a register operand, or the sub-opcode of 81, 83, D1, FF and
C7 (30_encoding.md R98 to R101, R103). No rows means that the sub-opcode is unsupported. -/
def modRmRows (op : Byte) (n : BitVec 3) : Option Rows :=
  match op.toNat, n.toNat with
  | 0x01, _ => some { reg := some fun rm => .none (.addRR rm (.ofNum n)), mem := some fun m => .none (.addMR m (.ofNum n)) }
  | 0x03, _ => some { reg := none, mem := some fun m => .none (.addRM (.ofNum n) m) }
  | 0x29, _ => some { reg := some fun rm => .none (.subRR rm (.ofNum n)), mem := some fun m => .none (.subMR m (.ofNum n)) }
  | 0x2B, _ => some { reg := none, mem := some fun m => .none (.subRM (.ofNum n) m) }
  | 0x31, _ => some { reg := some fun rm => .none (.xorRR rm (.ofNum n)), mem := none }
  | 0x3B, _ => some { reg := none, mem := some fun m => .none (.cmpRM (.ofNum n) m) }
  | 0x81, 0 => some { reg := some fun rm => .imm32 (.addRImm32 rm), mem := none }
  | 0x81, 5 => some { reg := some fun rm => .imm32 (.subRImm32 rm), mem := none }
  | 0x83, 0 => some { reg := some fun rm => .imm8 (.addRImm8 rm), mem := some fun m => .imm8 (.addMImm8 m) }
  | 0x83, 4 => some { reg := some fun rm => .imm8 (.andRImm8 rm), mem := none }
  | 0x83, 5 => some { reg := some fun rm => .imm8 (.subRImm8 rm), mem := some fun m => .imm8 (.subMImm8 m) }
  | 0x83, 7 => some { reg := some fun rm => .imm8 (.cmpRImm8 rm), mem := some fun m => .imm8 (.cmpMImm8 m) }
  | 0x89, _ => some { reg := some fun rm => .none (.movRR rm (.ofNum n)), mem := some fun m => .none (.movMR m (.ofNum n)) }
  | 0x8B, _ => some { reg := none, mem := some fun m => .none (.movRM (.ofNum n) m) }
  | 0x8D, _ => some { reg := none, mem := some fun m => .none (.lea (.ofNum n) m) }
  | 0xC7, 0 => some { reg := none, mem := some fun m => .imm32 (.movMImm32 m) }
  | 0xD1, 5 => some { reg := some fun rm => .none (.shrR rm), mem := none }
  | 0xFF, 6 => some { reg := none, mem := some fun m => .none (.pushM m) }
  | _, _ => none

/-- The opcodes that take a ModRM byte (41_dispatch.md R162). -/
def hasModRm (op : Byte) : Bool :=
  decide (op ∈ ([0x01, 0x03, 0x29, 0x2B, 0x31, 0x3B, 0x89, 0x8B, 0x8D, 0xC7, 0x81, 0x83, 0xD1, 0xFF] : List Byte))

/-- The rows with neither a ModRM byte nor the 0F escape: the single opcodes and the "+r" opcodes (41_dispatch.md R162). -/
def plainRow (op : Byte) : Option Tail :=
  match op.toNat with
  | 0x05 => some (.imm32 .addEaxImm32)
  | 0x2D => some (.imm32 .subEaxImm32)
  | 0x6A => some (.imm8 .pushImm8)
  | 0x74 => some (.imm8 .jzRel8)
  | 0x75 => some (.imm8 .jnzRel8)
  | 0x7E => some (.imm8 .jngRel8)
  | 0x7F => some (.imm8 .jgRel8)
  | 0x90 => some (.none .nop)
  | 0xC3 => some (.none .ret)
  | 0xE8 => some (.imm32 .callRel32)
  | 0xEB => some (.imm8 .jmpRel8)
  | _ =>
    match (op.extractLsb' 3 5).toNat with
    | 0b01010 => some (.none (.pushR (.ofNum (field20 op))))
    | 0b01011 => some (.none (.popR (.ofNum (field20 op))))
    | 0b10111 => some (.imm32 (.movRImm32 (.ofNum (field20 op))))
    | _ => none

/-- The rows behind the 0F escape (30_encoding.md R102). -/
def escapeRow (b2 : Byte) : Option Tail :=
  match b2.toNat with
  | 0x84 => some (.imm32 .jzRel32)
  | 0x85 => some (.imm32 .jnzRel32)
  | _ => none

/-! ## Consuming bytes: `pre` holds the bytes fetched so far, the list holds those that follow -/

/-- `Fetch8` (30_encoding.md R82). -/
def take8 (pre bs : List Byte) (k : Byte → List Byte → List Byte → DecodeResult) : DecodeResult :=
  match bs with
  | [] => .reject (.truncated pre)
  | b :: rest => k b (pre ++ [b]) rest

/-- `Fetch32`: four `Fetch8`, least significant byte first (30_encoding.md R82). -/
def take32 (pre bs : List Byte) (k : Word → List Byte → List Byte → DecodeResult) : DecodeResult :=
  take8 pre bs fun b0 pre bs => take8 pre bs fun b1 pre bs => take8 pre bs fun b2 pre bs => take8 pre bs fun b3 pre bs =>
    k (wordOf b0 b1 b2 b3) pre bs

/-- The immediate of a row, the last bytes of the instruction (30_encoding.md R80, R95). -/
def takeTail (t : Tail) (pre bs : List Byte) : DecodeResult :=
  match t with
  | .none i => .instr i bs
  | .imm8 f => take8 pre bs fun b _ rest => .instr (f b) rest
  | .imm32 f => take32 pre bs fun w _ rest => .instr (f w) rest

/-- The displacement of a memory mode: one byte in mode 01, four in mode 10 (30_encoding.md R87 to R90). -/
def takeDisp (mode : BitVec 2) (pre bs : List Byte) (k : Disp → List Byte → List Byte → DecodeResult) : DecodeResult :=
  if mode = 0b01 then take8 pre bs fun b pre rest => k (.d8 b) pre rest
  else take32 pre bs fun w pre rest => k (.d32 w) pre rest

/-- The memory operand of ModRM byte `m` in mode 01 or 10: the SIB byte and its check, then the displacement
(30_encoding.md R86 to R90, R93). -/
def takeMemOp (op m : Byte) (bs : List Byte) (k : MemOp → List Byte → List Byte → DecodeResult) : DecodeResult :=
  if field20 m = 0b100 then
    take8 [op, m] bs fun s pre rest =>
      if field76 s = 0 ∧ field53 s = 0b100 then
        takeDisp (field76 m) pre rest fun d pre rest =>
          k { sib := true, base := .ofNum (field20 s), disp := d } pre rest
      else .reject (.unsupportedAddressingMode [op, m, s])
  else
    takeDisp (field76 m) [op, m] bs fun d pre rest =>
      k { sib := false, base := .ofNum (field20 m), disp := d } pre rest

/-- A ModRM opcode after its ModRM byte: the sub-opcode, then the mode, then the operands (41_dispatch.md R162,
30_encoding.md R104, R109). -/
def decodeModRm (op m : Byte) (bs : List Byte) : DecodeResult :=
  match modRmRows op (field53 m) with
  | none => .reject (.unsupportedOpcode [op, m])
  | some rows =>
    match (field76 m).toNat with
    | 0 => .reject (.unsupportedAddressingMode [op, m])
    | 3 =>
      match rows.reg with
      | none => .reject (.unsupportedAddressingMode [op, m])
      | some f => takeTail (f (.ofNum (field20 m))) [op, m] bs
    | _ =>
      match rows.mem with
      | none => .reject (.unsupportedAddressingMode [op, m])
      | some f => takeMemOp op m bs fun a pre rest => takeTail (f a) pre rest

/-- `Decode(op)` (41_dispatch.md R162). -/
def decodeOp (op : Byte) (bs : List Byte) : DecodeResult :=
  if op = 0x0F then
    take8 [op] bs fun b2 pre rest =>
      match escapeRow b2 with
      | none => .reject (.unsupportedOpcode [op, b2])
      | some t => takeTail t pre rest
  else if hasModRm op then
    take8 [op] bs fun m _ rest => decodeModRm op m rest
  else
    match plainRow op with
    | none => .reject (.unsupportedOpcode [op])
    | some t => takeTail t [op] bs

/-- Decoding from the opcode byte on (41_dispatch.md R161, R162). -/
def decode (bs : List Byte) : DecodeResult :=
  take8 [] bs fun op _ rest => decodeOp op rest

/-- The length of the longest instruction: C7 /0 in mode 10 with a SIB byte (30_encoding.md R81). -/
def maxInstrLength : Nat := 11

/-- The bytes of an instruction given as the number of spec/opcode_table.json: bit 0 is the least significant bit of the
first byte, and every bit above `nbits` is 0. -/
def tableBytes (nbits w : Nat) : List Byte :=
  (List.range maxInstrLength).map fun k => BitVec.ofNat 8 ((w % 2 ^ nbits) >>> (8 * k))

/-- The instruction the decoder reads from an opcode-table word, `none` where it refuses. -/
def decodeTableWord (nbits w : Nat) : Option Instr :=
  match decode (tableBytes nbits w) with
  | .instr i _ => some i
  | .reject _ => none

/-! ## The encoder -/

/-- The displacement bytes. -/
def Disp.bytes : Disp → List Byte
  | .d8 d => [d]
  | .d32 d => bytesOf d

/-- ModRM.mod of a displacement: 01 for disp8, 10 for disp32 (30_encoding.md R83). -/
def Disp.mode : Disp → BitVec 2
  | .d8 _ => 0b01
  | .d32 _ => 0b10

/-- The addressing bytes of a memory operand, ModRM.reg holding `n` (30_encoding.md R83, R85 to R90). -/
def MemOp.bytes (m : MemOp) (n : BitVec 3) : List Byte :=
  if m.sib then packByte m.disp.mode n 0b100 :: packByte 0 0b100 m.base.num :: m.disp.bytes
  else packByte m.disp.mode n m.base.num :: m.disp.bytes

/-- The addressing byte of a register operand, mode 11 (30_encoding.md R91). -/
def regModRm (rm : Reg) (n : BitVec 3) : Byte := packByte 0b11 n rm.num

/-- The bytes of a well-formed instruction (30_encoding.md R80, R97). -/
def encode : Instr → List Byte
  | .addRR rm reg => [0x01, regModRm rm reg.num]
  | .addMR m reg => 0x01 :: m.bytes reg.num
  | .addRM reg m => 0x03 :: m.bytes reg.num
  | .addEaxImm32 imm => 0x05 :: bytesOf imm
  | .subRR rm reg => [0x29, regModRm rm reg.num]
  | .subMR m reg => 0x29 :: m.bytes reg.num
  | .subRM reg m => 0x2B :: m.bytes reg.num
  | .subEaxImm32 imm => 0x2D :: bytesOf imm
  | .xorRR rm reg => [0x31, regModRm rm reg.num]
  | .cmpRM reg m => 0x3B :: m.bytes reg.num
  | .pushR r => [plusR 0b01010 r]
  | .popR r => [plusR 0b01011 r]
  | .pushImm8 imm => [0x6A, imm]
  | .jzRel8 rel => [0x74, rel]
  | .jnzRel8 rel => [0x75, rel]
  | .jngRel8 rel => [0x7E, rel]
  | .jgRel8 rel => [0x7F, rel]
  | .addRImm32 rm imm => 0x81 :: regModRm rm 0 :: bytesOf imm
  | .subRImm32 rm imm => 0x81 :: regModRm rm 5 :: bytesOf imm
  | .addRImm8 rm imm => [0x83, regModRm rm 0, imm]
  | .addMImm8 m imm => 0x83 :: m.bytes 0 ++ [imm]
  | .andRImm8 rm imm => [0x83, regModRm rm 4, imm]
  | .subRImm8 rm imm => [0x83, regModRm rm 5, imm]
  | .subMImm8 m imm => 0x83 :: m.bytes 5 ++ [imm]
  | .cmpRImm8 rm imm => [0x83, regModRm rm 7, imm]
  | .cmpMImm8 m imm => 0x83 :: m.bytes 7 ++ [imm]
  | .movRR rm reg => [0x89, regModRm rm reg.num]
  | .movMR m reg => 0x89 :: m.bytes reg.num
  | .movRM reg m => 0x8B :: m.bytes reg.num
  | .lea reg m => 0x8D :: m.bytes reg.num
  | .nop => [0x90]
  | .movRImm32 r imm => plusR 0b10111 r :: bytesOf imm
  | .ret => [0xC3]
  | .movMImm32 m imm => 0xC7 :: m.bytes 0 ++ bytesOf imm
  | .shrR rm => [0xD1, regModRm rm 5]
  | .callRel32 rel => 0xE8 :: bytesOf rel
  | .jmpRel8 rel => [0xEB, rel]
  | .pushM m => 0xFF :: m.bytes 6
  | .jzRel32 rel => 0x0F :: 0x84 :: bytesOf rel
  | .jnzRel32 rel => 0x0F :: 0x85 :: bytesOf rel

/-- The length of the addressing bytes of a memory operand: ModRM, SIB where there is one, displacement
(30_encoding.md R81). -/
def MemOp.length (m : MemOp) : Nat :=
  1 + (if m.sib then 1 else 0) + (match m.disp with | .d8 _ => 1 | .d32 _ => 4)

/-- The length of an instruction in bytes, from the length formula of 30_encoding.md R81. -/
def Instr.length : Instr → Nat
  | .addRR _ _ => 2
  | .addMR m _ => 1 + m.length
  | .addRM _ m => 1 + m.length
  | .addEaxImm32 _ => 5
  | .subRR _ _ => 2
  | .subMR m _ => 1 + m.length
  | .subRM _ m => 1 + m.length
  | .subEaxImm32 _ => 5
  | .xorRR _ _ => 2
  | .cmpRM _ m => 1 + m.length
  | .pushR _ => 1
  | .popR _ => 1
  | .pushImm8 _ => 2
  | .jzRel8 _ => 2
  | .jnzRel8 _ => 2
  | .jngRel8 _ => 2
  | .jgRel8 _ => 2
  | .addRImm32 _ _ => 6
  | .subRImm32 _ _ => 6
  | .addRImm8 _ _ => 3
  | .addMImm8 m _ => 1 + m.length + 1
  | .andRImm8 _ _ => 3
  | .subRImm8 _ _ => 3
  | .subMImm8 m _ => 1 + m.length + 1
  | .cmpRImm8 _ _ => 3
  | .cmpMImm8 m _ => 1 + m.length + 1
  | .movRR _ _ => 2
  | .movMR m _ => 1 + m.length
  | .movRM _ m => 1 + m.length
  | .lea _ m => 1 + m.length
  | .nop => 1
  | .movRImm32 _ _ => 5
  | .ret => 1
  | .movMImm32 m _ => 1 + m.length + 4
  | .shrR _ => 2
  | .callRel32 _ => 5
  | .jmpRel8 _ => 2
  | .pushM m => 1 + m.length
  | .jzRel32 _ => 6
  | .jnzRel32 _ => 6

end Sys2Proof
end

