-- ==== Sys2Proof/Config.lean ====
section
/-! DEFINITION. The four parameters a model takes as arguments (00_scope.md R10), with the spec's defaults. They are
fixed for a run: no step writes one. The model has no free value (93_implementation_defined.md, end of part 1). -/

namespace Sys2Proof

/-- `P_PUSH_IMM8_EXT` (00_scope.md R10, 92_eei_decisions.md D19). -/
inductive PushImm8Ext where
  | zero
  | sign
deriving DecidableEq, Repr

/-- `P_EA_OVERFLOW` (00_scope.md R10, 92_eei_decisions.md D8). -/
inductive EaOverflow where
  | wrap
  | fault
deriving DecidableEq, Repr

/-- The configuration of one run. `stepBudget` belongs to the host's run, not to the step (10_state.md R42). -/
structure Config where
  memSize     : Nat
  pushImm8Ext : PushImm8Ext
  eaOverflow  : EaOverflow
  stepBudget  : Option Nat
deriving DecidableEq, Repr

/-- The defaults of 00_scope.md R10. -/
def Config.default : Config :=
  { memSize := 0x100000, pushImm8Ext := .zero, eaOverflow := .wrap, stepBudget := none }

/-- The range of `MEM_SIZE`: 4 <= MEM_SIZE <= 2^32 (00_scope.md R10, 92_eei_decisions.md D16). -/
abbrev Config.Wf (c : Config) : Prop := 4 ≤ c.memSize ∧ c.memSize ≤ 2 ^ 32

end Sys2Proof
end

