-- ==== Sys2Proof/Machine/State.lean ====
section
/-! DEFINITION. The state of the core as plain data (10_state.md), the reasons a step can stop, and the state after
reset (10_state.md R34). -/

namespace Sys2Proof.Machine

/-- The register file (10_state.md R20). -/
structure Regs where
  eax : Word
  ecx : Word
  edx : Word
  ebx : Word
  esp : Word
  ebp : Word
  esi : Word
  edi : Word
deriving DecidableEq, Repr

/-- The four defined bits of the flags word (10_state.md R25); every other bit reads as zero, so these determine it
(DEDUCED, log entry 4). -/
structure Flags where
  cf : Bool
  zf : Bool
  sf : Bool
  of : Bool
deriving DecidableEq, Repr

/-- Memory in canonical form: addresses strictly rising, no entry equal to 0x00, which is what an unlisted address reads
as (20_memory.md R51: Memory is zero-filled; log entry 5). -/
abbrev Memory := List Host.Cell

/-- The kind of a fault with the fields only that kind has (10_state.md R29, 60_exceptions.md R260). -/
inductive FaultCause where
  | unsupportedOpcode
  | unsupportedAddressingMode
  | outOfBounds (addr : Word) (width : Nat)
deriving DecidableEq, Repr

/-- The fault record (10_state.md R29; 60_exceptions.md R263 to R266). -/
structure FaultRecord where
  cause : FaultCause
  eip   : Word
  bytes : List Byte
deriving DecidableEq, Repr

/-- The run status (10_state.md R28). -/
inductive Status where
  | running
  | halted
  | fault (r : FaultRecord)
deriving DecidableEq, Repr

/-- The state of the core: the tuple (x[0..7], pc, flags, mem, status) of 10_state.md, and the configuration, which no
step writes (00_scope.md R10; that it stands here is a DESIGN CHOICE, log entry 1). -/
structure State where
  regs   : Regs
  pc     : Word
  flags  : Flags
  mem    : Memory
  status : Status
  cfg    : Config
deriving DecidableEq, Repr

/-- Why a step answers no next state although it is no refusal. A fault of the SPEC is not one of these: it is a next
state whose status is `Status.fault` (60_exceptions.md R262; DESIGN CHOICE, log entry 2). -/
inductive Fault where
  /-- Raised by `step` when the status is Halted: the core has no step then (41_dispatch.md R160). Safe: it stops. -/
  | coreHalted
  /-- Raised by `step` when the status is already Fault: the core has no step then (41_dispatch.md R160). Safe: it
  stops. -/
  | coreFaulted (r : FaultRecord)
deriving DecidableEq, Repr

/-- Why an instruction has no meaning in the model. -/
inductive Refusal where
  /-- Raised by an arm of `exec` whose instruction has no meaning yet; no arm does. Safe: it stops. -/
  | notModelled (mnemonic : String)
deriving DecidableEq, Repr

/-- The state after construction, before any image is loaded and before the first step (10_state.md R34,
70_reset_and_hazards.md R290): every register 0 but ESP = MEM_SIZE - 4, pc = 0, flags 0, Memory all zero, Running. -/
def State.start (cfg : Config) : State :=
  { regs := { eax := 0, ecx := 0, edx := 0, ebx := 0, esp := BitVec.ofNat 32 (cfg.memSize - 4), ebp := 0, esi := 0, edi := 0 }
    pc := 0
    flags := { cf := false, zf := false, sf := false, of := false }
    mem := []
    status := .running
    cfg := cfg }

/-- The machine right after reset, in the default configuration (00_scope.md R10) with an empty image (10_state.md
R40: L = 0 is allowed). A program comes from outside: log entry 6. The configuration is log entry 7. -/
def State.reset : State := State.start Config.default

end Sys2Proof.Machine
end

