-- ==== Sys2Proof/Machine/Ops.lean ====
section
/-! DEFINITION. The named operations over registers, memory and status that every meaning shares: the register file
(10_state.md), the memory primitives (20_memory.md), the stack primitives (42_data_movement.md R190, R191), taking a
fault (60_exceptions.md R262) and completing an instruction (41_dispatch.md R163). -/

namespace Sys2Proof.Machine

/-! ## Registers, pc, flags and status -/

/-- `x[i]` of the register file (10_state.md R20). -/
def Regs.get (rs : Regs) : Reg → Word
  | .eax => rs.eax
  | .ecx => rs.ecx
  | .edx => rs.edx
  | .ebx => rs.ebx
  | .esp => rs.esp
  | .ebp => rs.ebp
  | .esi => rs.esi
  | .edi => rs.edi

/-- `x[i] <- v`. No register is hardwired (10_state.md R22). -/
def Regs.set (rs : Regs) (r : Reg) (v : Word) : Regs :=
  match r with
  | .eax => { rs with eax := v }
  | .ecx => { rs with ecx := v }
  | .edx => { rs with edx := v }
  | .ebx => { rs with ebx := v }
  | .esp => { rs with esp := v }
  | .ebp => { rs with ebp := v }
  | .esi => { rs with esi := v }
  | .edi => { rs with edi := v }

/-- Read a general register (00_scope.md R12). -/
def State.reg (s : State) (r : Reg) : Word := s.regs.get r

/-- Write a general register (00_scope.md R12). -/
def State.setReg (s : State) (r : Reg) (v : Word) : State := { s with regs := s.regs.set r v }

/-- `pc <- target` (00_scope.md R12). -/
def State.setPc (s : State) (v : Word) : State := { s with pc := v }

/-- Write all four flags (40_alu_flags.md R131). -/
def State.setFlags (s : State) (f : Flags) : State := { s with flags := f }

/-- `status <- v` (00_scope.md R12). -/
def State.setStatus (s : State) (v : Status) : State := { s with status := v }

/-- The flags word: `CF | ZF<<6 | SF<<7 | OF<<11` (10_state.md R25). -/
def Flags.word (f : Flags) : Word :=
  (if f.cf then 0x1 else 0) ||| (if f.zf then 0x40 else 0) ||| (if f.sf then 0x80 else 0) ||| (if f.of then 0x800 else 0)

/-! ## Memory -/

/-- The byte at an address; an unlisted address reads as 0x00 (20_memory.md R51). -/
def Memory.get : Memory → Nat → Byte
  | [], _ => 0
  | (k, v) :: m, a => if k = a then v else Memory.get m a

/-- Set the byte at an address, keeping the canonical form: a zero byte is not listed. -/
def Memory.set : Memory → Nat → Byte → Memory
  | [], a, b => if b = 0 then [] else [(a, b)]
  | (k, v) :: m, a, b =>
    if a < k then if b = 0 then (k, v) :: m else (a, b) :: (k, v) :: m
    else if a = k then if b = 0 then m else (a, b) :: m
    else (k, v) :: Memory.set m a b

/-- The canonical form from address `lo` on: addresses strictly rising, no zero byte listed. -/
def Memory.wfFrom : Nat → Memory → Bool
  | _, [] => true
  | lo, (k, v) :: m => decide (lo ≤ k) && decide (v ≠ 0) && Memory.wfFrom (k + 1) m

/-- The canonical form. -/
def Memory.wf (m : Memory) : Bool := Memory.wfFrom 0 m

/-- No address at or beyond `n` is listed (20_memory.md R50: addresses 0 to MEM_SIZE-1). -/
def Memory.below (n : Nat) (m : Memory) : Bool := m.all fun c => decide (c.1 < n)

/-- The byte of Memory at an address, without a bounds check: what the memory read view shows (10_state.md R41). -/
def State.byteAt (s : State) (a : Nat) : Byte := s.mem.get a

/-- Store one byte, without a bounds check. -/
def State.setByte (s : State) (a : Nat) (b : Byte) : State := { s with mem := s.mem.set a b }

/-- What an operation answers that a fault may end: a value, or the cause of the fault (00_scope.md R12, `raise`). -/
abbrev Attempt (α : Type) := Except FaultCause α

/-- An access of `n` bytes at `a` is in bounds: `a + n <= MEM_SIZE`, with no wraparound (20_memory.md R56). -/
def State.inBounds (s : State) (a : Word) (n : Nat) : Bool := decide (a.toNat + n ≤ s.cfg.memSize)

/-- `MemRead(a, 1)` (20_memory.md R52). -/
def State.memRead8 (s : State) (a : Word) : Attempt Byte :=
  if s.inBounds a 1 then .ok (s.byteAt a.toNat) else .error (.outOfBounds a 1)

/-- `MemRead(a, 4)`, little-endian (20_memory.md R53). -/
def State.memRead32 (s : State) (a : Word) : Attempt Word :=
  if s.inBounds a 4 then
    .ok (wordOf (s.byteAt a.toNat) (s.byteAt (a.toNat + 1)) (s.byteAt (a.toNat + 2)) (s.byteAt (a.toNat + 3)))
  else .error (.outOfBounds a 4)

/-- `MemWrite(a, 1, v)` (20_memory.md R54). No supported instruction uses it. -/
def State.memWrite8 (s : State) (a : Word) (v : Word) : Attempt State :=
  if s.inBounds a 1 then .ok (s.setByte a.toNat (byteOf v 0)) else .error (.outOfBounds a 1)

/-- The four byte stores of a 32-bit write, without a bounds check (20_memory.md R55). -/
def State.setWord (s : State) (a : Nat) (v : Word) : State :=
  (((s.setByte a (byteOf v 0)).setByte (a + 1) (byteOf v 1)).setByte (a + 2) (byteOf v 2)).setByte (a + 3) (byteOf v 3)

/-- `MemWrite(a, 4, v)`: the bounds check covers all four bytes before any is stored (20_memory.md R55). -/
def State.memWrite32 (s : State) (a : Word) (v : Word) : Attempt State :=
  if s.inBounds a 4 then .ok (s.setWord a.toNat v) else .error (.outOfBounds a 4)

/-! ## The stack -/

/-- `Push(v)` (42_data_movement.md R190). -/
def State.push (s : State) (v : Word) : Attempt State := do
  let sp := s.reg .esp - 4
  let t ← s.memWrite32 sp v
  .ok (t.setReg .esp sp)

/-- `Pop()` (42_data_movement.md R191): the loaded value and the state with ESP moved up. -/
def State.pop (s : State) : Attempt (Word × State) := do
  let v ← s.memRead32 (s.reg .esp)
  .ok (v, s.setReg .esp (s.reg .esp + 4))

/-! ## Faults and completion -/

/-- Fault entry (60_exceptions.md R262; 41_dispatch.md R164): the registers, flags, Memory and pc stay as they were
before the instruction, and the status becomes Fault with the record. `eip` is the pc, which is the address of the
instruction's first byte (R266). There is no return from a fault (R268). -/
def State.raise (s : State) (cause : FaultCause) (bytes : List Byte) : State :=
  s.setStatus (.fault { cause := cause, eip := s.pc, bytes := bytes })

/-- The pc after `n` more bytes are consumed, modulo 2^32 (30_encoding.md R82, 10_state.md R24). -/
def State.advance (s : State) (n : Nat) : State := s.setPc (s.pc + BitVec.ofNat 32 n)

/-- Run instruction `i` at state `s` (41_dispatch.md R163, R166 phases P7 and P8). The body works on a copy whose pc is
already behind the instruction's bytes; its effects are committed only when it raises nothing. A fault it raises carries
all the bytes of the instruction, which decode has fetched by then (60_exceptions.md R265; for an address overflow DEDUCED
from 30_encoding.md R109, log entry 3). The status is not looked at: `step` does that (log entry 12). -/
def complete (i : Instr) (s : State) (body : State → Attempt State) : Host.Outcome State Fault Refusal :=
  match body (s.advance i.length) with
  | .ok t => .next t
  | .error cause => .next (s.raise cause (encode i))

end Sys2Proof.Machine
end

