-- ==== Sys2Proof/Machine/Operands.lean ====
section
/-! DEFINITION. Operand forms: effective addresses (30_encoding.md R87 to R94), immediates and branch displacements
(30_encoding.md R95). -/

namespace Sys2Proof.Machine

/-- `sext_32`: widen a byte by copying bit 7 (00_scope.md R11). -/
def sext8 (b : Byte) : Word := b.signExtend 32

/-- `zext_32`: widen a byte with zeros (00_scope.md R11). -/
def zext8 (b : Byte) : Word := b.zeroExtend 32

/-- The operand of PUSH imm8 under `P_PUSH_IMM8_EXT` (30_encoding.md R95, 42_data_movement.md R199). -/
def pushImmOperand (cfg : Config) (b : Byte) : Word :=
  match cfg.pushImm8Ext with
  | .zero => zext8 b
  | .sign => sext8 b

/-- The displacement as a word: a disp8 is sign-extended (30_encoding.md R87, R88), a disp32 is used as is (R89, R90). -/
def dispWord : Disp → Word
  | .d8 d => sext8 d
  | .d32 d => d

/-- The exact signed sum of an address addition (30_encoding.md R94). -/
def addrExact (base d : Word) : Int := base.toInt + d.toInt

/-- The address an addition gives: the exact sum taken modulo 2^32 (30_encoding.md R94). -/
def addrSum (base d : Word) : Word := BitVec.ofInt 32 (addrExact base d)

/-- The exact sum lies outside the i32 range (30_encoding.md R94). -/
def addrOverflows (base d : Word) : Bool :=
  decide (addrExact base d < -(2 ^ 31)) || decide (addrExact base d > 2 ^ 31 - 1)

/-- `AddrAdd(base, d)` (30_encoding.md R94): under `P_EA_OVERFLOW = fault` a signed overflow raises OutOfBounds. -/
def addrAdd (cfg : Config) (base d : Word) : Attempt Word :=
  if cfg.eaOverflow = .fault ∧ addrOverflows base d = true then .error (.outOfBounds (addrSum base d) 4)
  else .ok (addrSum base d)

/-- The address a memory operand names, before any check (30_encoding.md R87 to R90). -/
def State.addrOf (s : State) (m : MemOp) : Word := addrSum (s.reg m.base) (dispWord m.disp)

/-- `EA(m)` (30_encoding.md R87 to R90, R94). It is not checked against MEM_SIZE: an access does that (R94). -/
def State.ea (s : State) (m : MemOp) : Attempt Word := addrAdd s.cfg (s.reg m.base) (dispWord m.disp)

end Sys2Proof.Machine
end

