-- ==== Sys2Proof/Machine/Flags.lean ====
section
/-! DEFINITION. The ALU results, the compare primitive and the branch conditions (40_alu_flags.md R131 to R145). -/

namespace Sys2Proof.Machine

/-- `AluAdd` (40_alu_flags.md R138). -/
def aluAdd (a b : Word) : Word := a + b

/-- `AluSub` (40_alu_flags.md R139). -/
def aluSub (a b : Word) : Word := a - b

/-- `AluAnd` (40_alu_flags.md R140). -/
def aluAnd (a b : Word) : Word := a &&& b

/-- `AluXor` (40_alu_flags.md R141). -/
def aluXor (a b : Word) : Word := a ^^^ b

/-- `AluShr1`: logical, bit 31 of the result is 0 (40_alu_flags.md R142). -/
def aluShr1 (a : Word) : Word := a >>> 1

/-- `Compare(a, bu, bs)` (40_alu_flags.md R131 to R135). OF comes from the exact integer difference, not from CF or SF. -/
def compare (a bu : Word) (bs : Int) : Flags :=
  { cf := decide (a.toNat < bu.toNat)
    zf := decide (a - bu = 0)
    sf := (a - bu).msb
    of := !(decide (-(2 ^ 31) ≤ a.toInt - bs) && decide (a.toInt - bs ≤ 2 ^ 31 - 1)) }

/-- The call of `Compare` against a register or memory value: bs = s32(v) (40_alu_flags.md R136). -/
def compareValue (a v : Word) : Flags := compare a v v.toInt

/-- The call of `Compare` against an 8-bit immediate: bs = s32(sext_32(imm8)) (40_alu_flags.md R136). -/
def compareImm8 (a : Word) (b : Byte) : Flags := compare a (sext8 b) (sext8 b).toInt

/-- The conditions of the conditional jumps (40_alu_flags.md R144). -/
inductive Cond where
  | z | nz | g | ng
deriving DecidableEq, Repr

/-- `Cond(C)` (40_alu_flags.md R144). -/
def Cond.holds (c : Cond) (f : Flags) : Bool :=
  match c with
  | .z => f.zf
  | .nz => !f.zf
  | .g => !f.zf && (f.sf == f.of)
  | .ng => !(!f.zf && (f.sf == f.of))

end Sys2Proof.Machine
end

