-- ==== Sys2Proof/Machine/DataMovement.lean ====
section
/-! DEFINITION. Data movement: MOV, LEA, PUSH, POP (42_data_movement.md). None of these writes a flag. -/

namespace Sys2Proof.Machine

/-- Write a computed value to a register: the shape of every register destination. -/
def toReg (r : Reg) (v : State → Word) (w : State) : Attempt State := .ok (w.setReg r (v w))

/-- Load the memory operand and write `f` of it to a register. -/
def loadTo (r : Reg) (m : MemOp) (f : Word → State → Word) (w : State) : Attempt State := do
  let a ← w.ea m
  let v ← w.memRead32 a
  .ok (w.setReg r (f v w))

/-- Store a computed value to the memory operand. -/
def storeTo (m : MemOp) (v : State → Word) (w : State) : Attempt State := do
  let a ← w.ea m
  w.memWrite32 a (v w)

/-- MOV r32, imm32 (42_data_movement.md R192). -/
def execMovRImm32 (r : Reg) (imm : Word) (s : State) : Host.Outcome State Fault Refusal :=
  complete (.movRImm32 r imm) s (toReg r fun _ => imm)

/-- MOV r/m32(reg), r32 (42_data_movement.md R193). -/
def execMovRR (rm reg : Reg) (s : State) : Host.Outcome State Fault Refusal :=
  complete (.movRR rm reg) s (toReg rm fun w => w.reg reg)

/-- MOV m32, r32 (42_data_movement.md R194). -/
def execMovMR (m : MemOp) (reg : Reg) (s : State) : Host.Outcome State Fault Refusal :=
  complete (.movMR m reg) s (storeTo m fun w => w.reg reg)

/-- MOV r32, m32 (42_data_movement.md R195). -/
def execMovRM (reg : Reg) (m : MemOp) (s : State) : Host.Outcome State Fault Refusal :=
  complete (.movRM reg m) s (loadTo reg m fun v _ => v)

/-- MOV m32, imm32 (42_data_movement.md R196). -/
def execMovMImm32 (m : MemOp) (imm : Word) (s : State) : Host.Outcome State Fault Refusal :=
  complete (.movMImm32 m imm) s (storeTo m fun _ => imm)

/-- LEA r32, m: the effective address itself, with no access (42_data_movement.md R197). -/
def execLea (reg : Reg) (m : MemOp) (s : State) : Host.Outcome State Fault Refusal :=
  complete (.lea reg m) s fun w => do
    let a ← w.ea m
    .ok (w.setReg reg a)

/-- PUSH r32: PUSH ESP stores the ESP before the decrement (42_data_movement.md R198). -/
def execPushR (r : Reg) (s : State) : Host.Outcome State Fault Refusal :=
  complete (.pushR r) s fun w => w.push (w.reg r)

/-- PUSH imm8 (42_data_movement.md R199). -/
def execPushImm8 (imm : Byte) (s : State) : Host.Outcome State Fault Refusal :=
  complete (.pushImm8 imm) s fun w => w.push (pushImmOperand w.cfg imm)

/-- PUSH m32: the operand is read, with the ESP before the push, and then pushed (42_data_movement.md R200). -/
def execPushM (m : MemOp) (s : State) : Host.Outcome State Fault Refusal :=
  complete (.pushM m) s fun w => do
    let a ← w.ea m
    let v ← w.memRead32 a
    w.push v

/-- POP r32: the write of the register follows the increment, so POP ESP leaves the loaded value (42_data_movement.md
R201). -/
def execPopR (r : Reg) (s : State) : Host.Outcome State Fault Refusal :=
  complete (.popR r) s fun w => do
    let (v, t) ← w.pop
    .ok (t.setReg r v)

end Sys2Proof.Machine
end

