-- ==== Sys2Proof/Machine/ArithLogic.lean ====
section
/-! DEFINITION. Arithmetic and logic: ADD, SUB, AND, XOR, CMP, SHR (43_arith_logic.md). Only the CMP forms write flags
(40_alu_flags.md R143). -/

namespace Sys2Proof.Machine

/-- Read the memory operand, combine it, and write the result to the same address: the address is computed once
(40_alu_flags.md R130). -/
def updateMem (m : MemOp) (f : Word → State → Word) (w : State) : Attempt State := do
  let a ← w.ea m
  let t ← w.memRead32 a
  w.memWrite32 a (f t w)

/-- ADD r/m32(reg), r32 (43_arith_logic.md R210). -/
def execAddRR (rm reg : Reg) (s : State) : Host.Outcome State Fault Refusal :=
  complete (.addRR rm reg) s (toReg rm fun w => aluAdd (w.reg rm) (w.reg reg))

/-- ADD m32, r32 (43_arith_logic.md R211). -/
def execAddMR (m : MemOp) (reg : Reg) (s : State) : Host.Outcome State Fault Refusal :=
  complete (.addMR m reg) s (updateMem m fun t w => aluAdd t (w.reg reg))

/-- ADD r32, m32 (43_arith_logic.md R212). -/
def execAddRM (reg : Reg) (m : MemOp) (s : State) : Host.Outcome State Fault Refusal :=
  complete (.addRM reg m) s (loadTo reg m fun v w => aluAdd (w.reg reg) v)

/-- ADD EAX, imm32 (43_arith_logic.md R213). -/
def execAddEaxImm32 (imm : Word) (s : State) : Host.Outcome State Fault Refusal :=
  complete (.addEaxImm32 imm) s (toReg .eax fun w => aluAdd (w.reg .eax) imm)

/-- ADD r32, imm32 (43_arith_logic.md R214). -/
def execAddRImm32 (rm : Reg) (imm : Word) (s : State) : Host.Outcome State Fault Refusal :=
  complete (.addRImm32 rm imm) s (toReg rm fun w => aluAdd (w.reg rm) imm)

/-- ADD r32, imm8 (43_arith_logic.md R215). -/
def execAddRImm8 (rm : Reg) (imm : Byte) (s : State) : Host.Outcome State Fault Refusal :=
  complete (.addRImm8 rm imm) s (toReg rm fun w => aluAdd (w.reg rm) (sext8 imm))

/-- ADD m32, imm8 (43_arith_logic.md R216). -/
def execAddMImm8 (m : MemOp) (imm : Byte) (s : State) : Host.Outcome State Fault Refusal :=
  complete (.addMImm8 m imm) s (updateMem m fun t _ => aluAdd t (sext8 imm))

/-- SUB r/m32(reg), r32 (43_arith_logic.md R217). -/
def execSubRR (rm reg : Reg) (s : State) : Host.Outcome State Fault Refusal :=
  complete (.subRR rm reg) s (toReg rm fun w => aluSub (w.reg rm) (w.reg reg))

/-- SUB m32, r32 (43_arith_logic.md R218). -/
def execSubMR (m : MemOp) (reg : Reg) (s : State) : Host.Outcome State Fault Refusal :=
  complete (.subMR m reg) s (updateMem m fun t w => aluSub t (w.reg reg))

/-- SUB r32, m32 (43_arith_logic.md R219). -/
def execSubRM (reg : Reg) (m : MemOp) (s : State) : Host.Outcome State Fault Refusal :=
  complete (.subRM reg m) s (loadTo reg m fun v w => aluSub (w.reg reg) v)

/-- SUB EAX, imm32 (43_arith_logic.md R220). -/
def execSubEaxImm32 (imm : Word) (s : State) : Host.Outcome State Fault Refusal :=
  complete (.subEaxImm32 imm) s (toReg .eax fun w => aluSub (w.reg .eax) imm)

/-- SUB r32, imm32 (43_arith_logic.md R221). -/
def execSubRImm32 (rm : Reg) (imm : Word) (s : State) : Host.Outcome State Fault Refusal :=
  complete (.subRImm32 rm imm) s (toReg rm fun w => aluSub (w.reg rm) imm)

/-- SUB r32, imm8 (43_arith_logic.md R222). -/
def execSubRImm8 (rm : Reg) (imm : Byte) (s : State) : Host.Outcome State Fault Refusal :=
  complete (.subRImm8 rm imm) s (toReg rm fun w => aluSub (w.reg rm) (sext8 imm))

/-- SUB m32, imm8 (43_arith_logic.md R223). -/
def execSubMImm8 (m : MemOp) (imm : Byte) (s : State) : Host.Outcome State Fault Refusal :=
  complete (.subMImm8 m imm) s (updateMem m fun t _ => aluSub t (sext8 imm))

/-- AND r32, imm8 (43_arith_logic.md R224). -/
def execAndRImm8 (rm : Reg) (imm : Byte) (s : State) : Host.Outcome State Fault Refusal :=
  complete (.andRImm8 rm imm) s (toReg rm fun w => aluAnd (w.reg rm) (sext8 imm))

/-- XOR r/m32(reg), r32 (43_arith_logic.md R225). -/
def execXorRR (rm reg : Reg) (s : State) : Host.Outcome State Fault Refusal :=
  complete (.xorRR rm reg) s (toReg rm fun w => aluXor (w.reg rm) (w.reg reg))

/-- CMP r32, m32 (43_arith_logic.md R226). -/
def execCmpRM (reg : Reg) (m : MemOp) (s : State) : Host.Outcome State Fault Refusal :=
  complete (.cmpRM reg m) s fun w => do
    let a ← w.ea m
    let b ← w.memRead32 a
    .ok (w.setFlags (compareValue (w.reg reg) b))

/-- CMP r32, imm8 (43_arith_logic.md R227). -/
def execCmpRImm8 (rm : Reg) (imm : Byte) (s : State) : Host.Outcome State Fault Refusal :=
  complete (.cmpRImm8 rm imm) s fun w => .ok (w.setFlags (compareImm8 (w.reg rm) imm))

/-- CMP m32, imm8 (43_arith_logic.md R228). -/
def execCmpMImm8 (m : MemOp) (imm : Byte) (s : State) : Host.Outcome State Fault Refusal :=
  complete (.cmpMImm8 m imm) s fun w => do
    let a ← w.ea m
    let v ← w.memRead32 a
    .ok (w.setFlags (compareImm8 v imm))

/-- SHR r32, 1 (43_arith_logic.md R229). -/
def execShrR (rm : Reg) (s : State) : Host.Outcome State Fault Refusal :=
  complete (.shrR rm) s (toReg rm fun w => aluShr1 (w.reg rm))

end Sys2Proof.Machine
end

