-- ==== Sys2Proof/Machine/ControlTransfer.lean ====
section
/-! DEFINITION. Control transfer: CALL, RET, JMP, the conditional jumps, NOP (44_control_transfer.md). In a body the pc is
`pc_after`, the address of the next sequential instruction. A transfer never faults on its target (R252). -/

namespace Sys2Proof.Machine

/-- `pc <- pc +32 d` (44_control_transfer.md R240, R243, R244). -/
def State.jump (w : State) (d : Word) : State := w.setPc (w.pc + d)

/-- The conditional-jump template (44_control_transfer.md R244). -/
def jumpIf (c : Cond) (d : Word) (w : State) : Attempt State :=
  .ok (if c.holds w.flags then w.jump d else w)

/-- CALL rel32: push pc_after, then jump (44_control_transfer.md R240). -/
def execCallRel32 (rel : Word) (s : State) : Host.Outcome State Fault Refusal :=
  complete (.callRel32 rel) s fun w => do
    let t ← w.push w.pc
    .ok (t.jump rel)

/-- RET: a popped 0 halts the run with the pc behind the RET byte, any other value is the new pc
(44_control_transfer.md R241). -/
def execRet (s : State) : Host.Outcome State Fault Refusal :=
  complete .ret s fun w => do
    let (v, t) ← w.pop
    .ok (if v = 0 then t.setStatus .halted else t.setPc v)

/-- JMP rel8 (44_control_transfer.md R243). -/
def execJmpRel8 (rel : Byte) (s : State) : Host.Outcome State Fault Refusal :=
  complete (.jmpRel8 rel) s fun w => .ok (w.jump (sext8 rel))

/-- JZ rel8 (44_control_transfer.md R245). -/
def execJzRel8 (rel : Byte) (s : State) : Host.Outcome State Fault Refusal :=
  complete (.jzRel8 rel) s (jumpIf .z (sext8 rel))

/-- JNZ rel8 (44_control_transfer.md R246). -/
def execJnzRel8 (rel : Byte) (s : State) : Host.Outcome State Fault Refusal :=
  complete (.jnzRel8 rel) s (jumpIf .nz (sext8 rel))

/-- JG rel8 (44_control_transfer.md R247). -/
def execJgRel8 (rel : Byte) (s : State) : Host.Outcome State Fault Refusal :=
  complete (.jgRel8 rel) s (jumpIf .g (sext8 rel))

/-- JNG rel8 (44_control_transfer.md R248). -/
def execJngRel8 (rel : Byte) (s : State) : Host.Outcome State Fault Refusal :=
  complete (.jngRel8 rel) s (jumpIf .ng (sext8 rel))

/-- JZ rel32 (44_control_transfer.md R249). -/
def execJzRel32 (rel : Word) (s : State) : Host.Outcome State Fault Refusal :=
  complete (.jzRel32 rel) s (jumpIf .z rel)

/-- JNZ rel32 (44_control_transfer.md R250). -/
def execJnzRel32 (rel : Word) (s : State) : Host.Outcome State Fault Refusal :=
  complete (.jnzRel32 rel) s (jumpIf .nz rel)

/-- NOP: nothing but the pc's advance (44_control_transfer.md R251). -/
def execNop (s : State) : Host.Outcome State Fault Refusal :=
  complete .nop s .ok

end Sys2Proof.Machine
end

