-- ==== Sys2Proof/Machine/Dispatch.lean ====
section
/-! DEFINITION. One arm per constructor of Instr, each one direct call of the instruction's meaning (41_dispatch.md R162,
30_encoding.md R97). -/

namespace Sys2Proof.Machine

def exec (i : Instr) (s : State) : Host.Outcome State Fault Refusal :=
  match i with
  | .addRR rm reg => Sys2Proof.Machine.execAddRR rm reg s
  | .addMR m reg => Sys2Proof.Machine.execAddMR m reg s
  | .addRM reg m => Sys2Proof.Machine.execAddRM reg m s
  | .addEaxImm32 imm => Sys2Proof.Machine.execAddEaxImm32 imm s
  | .subRR rm reg => Sys2Proof.Machine.execSubRR rm reg s
  | .subMR m reg => Sys2Proof.Machine.execSubMR m reg s
  | .subRM reg m => Sys2Proof.Machine.execSubRM reg m s
  | .subEaxImm32 imm => Sys2Proof.Machine.execSubEaxImm32 imm s
  | .xorRR rm reg => Sys2Proof.Machine.execXorRR rm reg s
  | .cmpRM reg m => Sys2Proof.Machine.execCmpRM reg m s
  | .pushR r => Sys2Proof.Machine.execPushR r s
  | .popR r => Sys2Proof.Machine.execPopR r s
  | .pushImm8 imm => Sys2Proof.Machine.execPushImm8 imm s
  | .jzRel8 rel => Sys2Proof.Machine.execJzRel8 rel s
  | .jnzRel8 rel => Sys2Proof.Machine.execJnzRel8 rel s
  | .jngRel8 rel => Sys2Proof.Machine.execJngRel8 rel s
  | .jgRel8 rel => Sys2Proof.Machine.execJgRel8 rel s
  | .addRImm32 rm imm => Sys2Proof.Machine.execAddRImm32 rm imm s
  | .subRImm32 rm imm => Sys2Proof.Machine.execSubRImm32 rm imm s
  | .addRImm8 rm imm => Sys2Proof.Machine.execAddRImm8 rm imm s
  | .addMImm8 m imm => Sys2Proof.Machine.execAddMImm8 m imm s
  | .andRImm8 rm imm => Sys2Proof.Machine.execAndRImm8 rm imm s
  | .subRImm8 rm imm => Sys2Proof.Machine.execSubRImm8 rm imm s
  | .subMImm8 m imm => Sys2Proof.Machine.execSubMImm8 m imm s
  | .cmpRImm8 rm imm => Sys2Proof.Machine.execCmpRImm8 rm imm s
  | .cmpMImm8 m imm => Sys2Proof.Machine.execCmpMImm8 m imm s
  | .movRR rm reg => Sys2Proof.Machine.execMovRR rm reg s
  | .movMR m reg => Sys2Proof.Machine.execMovMR m reg s
  | .movRM reg m => Sys2Proof.Machine.execMovRM reg m s
  | .lea reg m => Sys2Proof.Machine.execLea reg m s
  | .nop => Sys2Proof.Machine.execNop s
  | .movRImm32 r imm => Sys2Proof.Machine.execMovRImm32 r imm s
  | .ret => Sys2Proof.Machine.execRet s
  | .movMImm32 m imm => Sys2Proof.Machine.execMovMImm32 m imm s
  | .shrR rm => Sys2Proof.Machine.execShrR rm s
  | .callRel32 rel => Sys2Proof.Machine.execCallRel32 rel s
  | .jmpRel8 rel => Sys2Proof.Machine.execJmpRel8 rel s
  | .pushM m => Sys2Proof.Machine.execPushM m s
  | .jzRel32 rel => Sys2Proof.Machine.execJzRel32 rel s
  | .jnzRel32 rel => Sys2Proof.Machine.execJnzRel32 rel s

end Sys2Proof.Machine
end

