-- ==== Sys2Proof/Machine/Fetch.lean ====
section
/-! DEFINITION. Fetching an instruction's bytes (30_encoding.md R82, 20_memory.md R67) and turning a decode rejection into
its fault (60_exceptions.md R263 to R265). -/

namespace Sys2Proof.Machine

/-- Up to `n` bytes from `a` on, ending before the first that is out of bounds. Addresses wrap modulo 2^32
(30_encoding.md R82, 20_memory.md R56). -/
def State.bytesFrom (s : State) : Nat → Word → List Byte
  | 0, _ => []
  | n + 1, a =>
    match s.memRead8 a with
    | .ok b => b :: State.bytesFrom s n (a + 1)
    | .error _ => []

/-- The bytes an instruction at the pc can consume: as many as the longest instruction has. Decoding looks at them in
order and only as far as it needs, so a byte that is out of bounds behind the instruction raises nothing (DEDUCED, log
entry 9). -/
def State.fetchWindow (s : State) : List Byte := s.bytesFrom maxInstrLength s.pc

/-- The fault of a decode rejection (60_exceptions.md R263, R264, R265): bytes that end too early mean that the fetch of
the next one is out of bounds. -/
def State.raiseDecode (s : State) : DecodeError → State
  | .unsupportedOpcode bs => s.raise .unsupportedOpcode bs
  | .unsupportedAddressingMode bs => s.raise .unsupportedAddressingMode bs
  | .truncated bs => s.raise (.outOfBounds (s.pc + BitVec.ofNat 32 bs.length) 1) bs

/-- Store a list of bytes from `a` on, wrapping modulo 2^32 as the fetch does; a byte that would lie outside Memory is
dropped. -/
def State.storeBytes (s : State) (a : Word) : List Byte → State
  | [] => s
  | b :: bs => State.storeBytes (if s.inBounds a 1 then s.setByte a.toNat b else s) (a + 1) bs

end Sys2Proof.Machine
end

