-- ==== Sys2Proof/Machine/Step.lean ====
section
/-! DEFINITION. One step of the core (41_dispatch.md R160 to R166), and where the host places an instruction. -/

namespace Sys2Proof.Machine

/-- One step: fetch and decode at the pc, then run the instruction, while the status is Running. A core that is Halted
or Fault has no step (41_dispatch.md R160). -/
def step (s : State) : Host.Outcome State Fault Refusal :=
  match s.status with
  | .running =>
    match decode s.fetchWindow with
    | .instr i _ => exec i s
    | .reject e => .next (s.raiseDecode e)
  | .halted => .fault .coreHalted
  | .fault r => .fault (.coreFaulted r)

/-- `s` with the instruction of an opcode-table word stored at the pc, where `step` fetches its next instruction: the
word's bytes, then zeros up to the longest instruction (DESIGN CHOICE, log entry 8). -/
def State.withFetchWord (s : State) (nbits w : Nat) : State := s.storeBytes s.pc (tableBytes nbits w)

end Sys2Proof.Machine
end

