-- ==== Sys2Proof/Machine/HostInterface.lean ====
section
/-! DEFINITION. What the host does with the core: loading an image (10_state.md R40), running it (R42, 41_dispatch.md
R167) and reading the result (R41). -/

namespace Sys2Proof.Machine

/-- Place an image in Memory from address `a` on (10_state.md R40). -/
def Memory.place (m : Memory) (a : Nat) : List Byte → Memory
  | [] => m
  | b :: bs => Memory.place (m.set a b) (a + 1) bs

/-- The state a run starts from (70_reset_and_hazards.md R290): the reset values of 10_state.md R34 with the image at
address 0. A launch is refused (`none`) when the image is longer than MEM_SIZE (10_state.md R40), and also when MEM_SIZE
lies outside the range of 00_scope.md R10 (DESIGN CHOICE, log entry 15). -/
def State.load (cfg : Config) (image : List Byte) : Option State :=
  if 4 ≤ cfg.memSize ∧ cfg.memSize ≤ 2 ^ 32 ∧ image.length ≤ cfg.memSize then
    some { State.start cfg with mem := Memory.place [] 0 image }
  else none

/-- The state after `n` steps; a terminal state stays (41_dispatch.md R160, R167). -/
def State.after (s : State) : Nat → State
  | 0 => s
  | n + 1 =>
    match step s with
    | .next t => State.after t n
    | .fault _ => s
    | .refused _ => s

/-- The status is terminal: Halted or Fault (10_state.md R28). -/
def Status.terminal : Status → Bool
  | .running => false
  | .halted => true
  | .fault _ => true

/-- The numeric code of a fault kind (60_exceptions.md R260). -/
def FaultCause.code : FaultCause → Nat
  | .unsupportedOpcode => 1
  | .unsupportedAddressingMode => 2
  | .outOfBounds _ _ => 3

/-- What the host reads after the run (10_state.md R41): the 8 registers in the order of R20, Memory, the terminal status
with its record, pc and the flags word. -/
structure Result where
  registers : List Word
  memory    : Memory
  status    : Status
  pc        : Word
  flags     : Word
deriving DecidableEq, Repr

/-- The registers in the order of 10_state.md R20. -/
def Regs.toList (rs : Regs) : List Word := [rs.eax, rs.ecx, rs.edx, rs.ebx, rs.esp, rs.ebp, rs.esi, rs.edi]

/-- The result, once the status is terminal (10_state.md R41). -/
def State.result (s : State) : Option Result :=
  if s.status.terminal then
    some { registers := s.regs.toList, memory := s.mem, status := s.status, pc := s.pc, flags := s.flags.word }
  else none

/-- The state the host sees after a run under its step budget (10_state.md R42): a budget that runs out leaves the
status Running (log entry 10). Without a budget (`none`) a run has an end only where `State.EndsIn` says so, and this answers `none`. -/
def State.budgetRun (s : State) : Option State := s.cfg.stepBudget.map s.after

end Sys2Proof.Machine
end

