-- ==== Sys2Proof/Safety.lean ====
section
/-! DEFINITION. What claims are stated in: the invariant of the machine, runs and how they end, and what counts as a safe
run. -/

namespace Sys2Proof.Machine

/-- A status of Fault names the address of the faulting instruction, which is the pc (41_dispatch.md R164,
60_exceptions.md R266). -/
def Status.precise (pc : Word) : Status → Prop
  | .running => True
  | .halted => True
  | .fault r => r.eip = pc

/-- The invariant of the machine: MEM_SIZE in its range (00_scope.md R10), Memory in canonical form with no address at or
beyond MEM_SIZE (20_memory.md R50), and a fault record that names the pc (60_exceptions.md R266). -/
structure State.Inv (s : State) : Prop where
  config  : s.cfg.Wf
  form    : s.mem.wf = true
  bounded : s.mem.below s.cfg.memSize = true
  precise : s.status.precise s.pc

/-- A run from `s` ends in `t`: `t` is reached and its status is terminal (41_dispatch.md R167). -/
def State.EndsIn (s t : State) : Prop := ∃ n, s.after n = t ∧ t.status.terminal = true

/-- A run that never ends: a hang (41_dispatch.md R167). -/
def State.Hangs (s : State) : Prop := ∀ n, (s.after n).status = .running

/-- A safe run never reaches a Fault status: it ends Halted or it hangs (41_dispatch.md R165, R167). -/
def State.SafeRun (s : State) : Prop := ∀ n r, (s.after n).status ≠ .fault r

end Sys2Proof.Machine
end

