-- ==== Sys2Proof/Certificates/Slice0/Obligations.lean ====
section
/-! DEFINITION. The statements for the provers. The namespace Sys2Proof.Claims holds the words they are made of, written
from the spec over numbers and byte reads, beside the model's own address functions. -/

namespace Sys2Proof.Claims

open Sys2Proof.Machine

/-! ## Words of the statements -/

/-- The u32 at address `a`: byte a is bits 0 to 7, byte a+1 is bits 8 to 15, and so on (20_memory.md R53). -/
def wordNat (s : State) (a : Nat) : Nat :=
  (s.byteAt a).toNat + 256 * (s.byteAt (a + 1)).toNat + 65536 * (s.byteAt (a + 2)).toNat + 16777216 * (s.byteAt (a + 3)).toNat

/-- `sext_32` by value: a byte of 128 or more stands for the byte minus 256 (00_scope.md R11). -/
def sext (b : Byte) : Word := BitVec.ofInt 32 (if b.toNat < 128 then (b.toNat : Int) else (b.toNat : Int) - 256)

/-- The displacement of a memory operand as a word (30_encoding.md R87 to R90). -/
def dispValue : Disp → Word
  | .d8 d => sext d
  | .d32 d => d

/-- The address addition raises nothing: `P_EA_OVERFLOW` is wrap, or the exact signed sum is an i32 (30_encoding.md R94). -/
abbrev eaOk (s : State) (m : MemOp) : Prop :=
  s.cfg.eaOverflow = .wrap ∨
    (-(2 ^ 31) ≤ (s.reg m.base).toInt + (dispValue m.disp).toInt ∧ (s.reg m.base).toInt + (dispValue m.disp).toInt ≤ 2 ^ 31 - 1)

/-- The four bytes of the memory operand lie inside Memory (20_memory.md R56). -/
abbrev operandInBounds (s : State) (m : MemOp) : Prop := (s.addrOf m).toNat + 4 ≤ s.cfg.memSize

/-- The stack slot a push writes lies inside Memory (42_data_movement.md R190). -/
abbrev pushInBounds (s : State) : Prop := (s.reg .esp - 4).toNat + 4 ≤ s.cfg.memSize

/-- The stack slot a pop reads lies inside Memory (42_data_movement.md R191). -/
abbrev popInBounds (s : State) : Prop := (s.reg .esp).toNat + 4 ≤ s.cfg.memSize

/-- `pc_after`: the address behind the instruction's bytes, modulo 2^32 (10_state.md R24). -/
def nextPc (i : Instr) (s : State) : Word := s.pc + BitVec.ofNat 32 (encode i).length

/-- Every register but those listed holds what it held. -/
def regsKept (s t : State) (except : List Reg) : Prop := ∀ r, r ∉ except → t.reg r = s.reg r

/-- Every byte of Memory reads as before. -/
def memKept (s t : State) : Prop := ∀ a, t.byteAt a = s.byteAt a

/-- The u32 at `a` is now `v`, and every byte outside its four reads as before. -/
def wordStored (s t : State) (a v : Nat) : Prop :=
  wordNat t a = v ∧ ∀ x, x < a ∨ a + 4 ≤ x → t.byteAt x = s.byteAt x

/-- `i` answers a next state in which register `rd` holds `v`, the pc is behind the instruction, and nothing else has
changed. -/
def RegResult (i : Instr) (s : State) (rd : Reg) (v : Nat) : Prop :=
  ∃ t, exec i s = .next t ∧ (t.reg rd).toNat = v ∧ regsKept s t [rd] ∧ memKept s t ∧ t.flags = s.flags ∧
    t.status = s.status ∧ t.cfg = s.cfg ∧ t.pc = nextPc i s

/-- `i` answers a next state in which the u32 at `a` is `v`, the pc is behind the instruction, and nothing else has
changed. -/
def MemResult (i : Instr) (s : State) (a v : Nat) : Prop :=
  ∃ t, exec i s = .next t ∧ wordStored s t a v ∧ regsKept s t [] ∧ t.flags = s.flags ∧ t.status = s.status ∧
    t.cfg = s.cfg ∧ t.pc = nextPc i s

/-- `i` answers a next state in which ESP is 4 lower, the u32 at the new ESP is `v`, the pc is `pc'`, and nothing else
has changed. -/
def PushResult (i : Instr) (s : State) (v : Nat) (pc' : Word) : Prop :=
  ∃ t, exec i s = .next t ∧ t.reg .esp = s.reg .esp - 4 ∧ wordStored s t (s.reg .esp - 4).toNat v ∧
    regsKept s t [.esp] ∧ t.flags = s.flags ∧ t.status = s.status ∧ t.cfg = s.cfg ∧ t.pc = pc'

/-- The flags of comparing `a` with `b`: unsigned borrow, equality, bit 31 of the difference, and whether the exact signed
difference is no i32 (40_alu_flags.md R132 to R135). -/
def cmpFlags (a b : Word) : Flags :=
  { cf := decide (a.toNat < b.toNat)
    zf := decide (a.toNat = b.toNat)
    sf := decide (2 ^ 31 ≤ (a.toNat + 2 ^ 32 - b.toNat) % 2 ^ 32)
    of := decide (a.toInt - b.toInt < -(2 ^ 31) ∨ 2 ^ 31 - 1 < a.toInt - b.toInt) }

/-- `i` answers the next state that differs only in the flags, which compare `a` with `b`, and in the pc. -/
def CmpResult (i : Instr) (s : State) (a b : Word) : Prop :=
  exec i s = .next { s with flags := cmpFlags a b, pc := nextPc i s }

/-- `i` answers the next state that differs only in the pc, which is the target if `c` holds and else is behind the
instruction. -/
def JumpResult (i : Instr) (s : State) (c : Bool) (d : Word) : Prop :=
  exec i s = .next { s with pc := if c then nextPc i s + d else nextPc i s }

/-- Fault entry: only the status changes, to the record of the cause, the pc and the bytes (41_dispatch.md R164,
60_exceptions.md R262, R266). -/
def faulted (s : State) (cause : FaultCause) (bytes : List Byte) : State :=
  { s with status := .fault { cause := cause, eip := s.pc, bytes := bytes } }

/-- The bytes `bs` stand in Memory from the pc on, inside Memory, addresses modulo 2^32 (30_encoding.md R82). -/
abbrev bytesAtPc (s : State) (bs : List Byte) : Prop :=
  ∀ k (h : k < bs.length), (s.pc + BitVec.ofNat 32 k).toNat < s.cfg.memSize ∧ s.byteAt (s.pc + BitVec.ofNat 32 k).toNat = bs[k]

/-- The unsupported primary bytes as 30_encoding.md R105 lists them; 0F is not among them, it is the escape. -/
abbrev unsupportedPrimaryNumber (n : Nat) : Prop :=
  n = 0x00 ∨ n = 0x02 ∨ n = 0x04 ∨ (0x06 ≤ n ∧ n ≤ 0x0E) ∨
  (0x10 ≤ n ∧ n ≤ 0x28) ∨ n = 0x2A ∨ n = 0x2C ∨ (0x2E ≤ n ∧ n ≤ 0x30) ∨ (0x32 ≤ n ∧ n ≤ 0x3A) ∨ (0x3C ≤ n ∧ n ≤ 0x4F) ∨
  (0x60 ≤ n ∧ n ≤ 0x69) ∨ (0x6B ≤ n ∧ n ≤ 0x73) ∨ (0x76 ≤ n ∧ n ≤ 0x7D) ∨ n = 0x80 ∨ n = 0x82 ∨ (0x84 ≤ n ∧ n ≤ 0x88) ∨
  n = 0x8A ∨ n = 0x8C ∨ n = 0x8E ∨ n = 0x8F ∨
  (0x91 ≤ n ∧ n ≤ 0xB7) ∨ (0xC0 ≤ n ∧ n ≤ 0xC2) ∨ (0xC4 ≤ n ∧ n ≤ 0xC6) ∨ (0xC8 ≤ n ∧ n ≤ 0xD0) ∨ (0xD2 ≤ n ∧ n ≤ 0xE7) ∨
  n = 0xE9 ∨ n = 0xEA ∨ (0xEC ≤ n ∧ n ≤ 0xFE)

/-- The byte is one of them. -/
abbrev unsupportedPrimary (op : Byte) : Prop := unsupportedPrimaryNumber op.toNat

/-- ModRM.mod, ModRM.reg and ModRM.rm, and SIB.scale, SIB.index and SIB.base, by value (30_encoding.md R83, R85). -/
def modOf (m : Byte) : Nat := m.toNat / 64
def regOf (m : Byte) : Nat := m.toNat / 8 % 8
def rmOf (m : Byte) : Nat := m.toNat % 8

/-- The opcode and ModRM.reg value have a "reg" row in 30_encoding.md R97. -/
abbrev hasRegRow (op : Byte) (n : Nat) : Prop :=
  op ∈ ([0x01, 0x29, 0x31, 0x89] : List Byte) ∨ (op = 0x81 ∧ (n = 0 ∨ n = 5)) ∨
    (op = 0x83 ∧ (n = 0 ∨ n = 4 ∨ n = 5 ∨ n = 7)) ∨ (op = 0xD1 ∧ n = 5)

/-- The opcode and ModRM.reg value have a "mem" row in 30_encoding.md R97. -/
abbrev hasMemRow (op : Byte) (n : Nat) : Prop :=
  op ∈ ([0x01, 0x03, 0x29, 0x2B, 0x3B, 0x89, 0x8B, 0x8D] : List Byte) ∨ (op = 0x83 ∧ (n = 0 ∨ n = 5 ∨ n = 7)) ∨
    (op = 0xC7 ∧ n = 0) ∨ (op = 0xFF ∧ n = 6)

/-- The instruction length of 30_encoding.md R81, read off the first bytes. -/
def specLength (bs : List Byte) : Nat :=
  match bs with
  | [] => 0
  | op :: rest =>
    let n := op.toNat
    let imm :=
      if n = 0x05 ∨ n = 0x2D ∨ n = 0xE8 ∨ (0xB8 ≤ n ∧ n ≤ 0xBF) ∨ n = 0x81 ∨ n = 0xC7 ∨ n = 0x0F then 4
      else if n = 0x6A ∨ n = 0xEB ∨ n = 0x74 ∨ n = 0x75 ∨ n = 0x7E ∨ n = 0x7F ∨ n = 0x83 then 1
      else 0
    let escape := if n = 0x0F then 1 else 0
    let addressing :=
      if op ∈ ([0x01, 0x03, 0x29, 0x2B, 0x31, 0x3B, 0x81, 0x83, 0x89, 0x8B, 0x8D, 0xC7, 0xD1, 0xFF] : List Byte) then
        match rest with
        | [] => 1
        | m :: _ =>
          1 + (if (modOf m = 1 ∨ modOf m = 2) ∧ rmOf m = 4 then 1 else 0) +
            (if modOf m = 1 then 1 else if modOf m = 2 then 4 else 0)
      else 0
    escape + 1 + addressing + imm

/-- The registers an instruction writes: the "writes" column of 10_state.md R23. -/
def writesReg : Instr → List Reg
  | .addRR rm _ => [rm]
  | .addMR _ _ => []
  | .addRM reg _ => [reg]
  | .addEaxImm32 _ => [.eax]
  | .subRR rm _ => [rm]
  | .subMR _ _ => []
  | .subRM reg _ => [reg]
  | .subEaxImm32 _ => [.eax]
  | .xorRR rm _ => [rm]
  | .cmpRM _ _ => []
  | .pushR _ => [.esp]
  | .popR r => [.esp, r]
  | .pushImm8 _ => [.esp]
  | .jzRel8 _ => []
  | .jnzRel8 _ => []
  | .jngRel8 _ => []
  | .jgRel8 _ => []
  | .addRImm32 rm _ => [rm]
  | .subRImm32 rm _ => [rm]
  | .addRImm8 rm _ => [rm]
  | .addMImm8 _ _ => []
  | .andRImm8 rm _ => [rm]
  | .subRImm8 rm _ => [rm]
  | .subMImm8 _ _ => []
  | .cmpRImm8 _ _ => []
  | .cmpMImm8 _ _ => []
  | .movRR rm _ => [rm]
  | .movMR _ _ => []
  | .movRM reg _ => [reg]
  | .lea reg _ => [reg]
  | .nop => []
  | .movRImm32 r _ => [r]
  | .ret => [.esp]
  | .movMImm32 _ _ => []
  | .shrR rm => [rm]
  | .callRel32 _ => [.esp]
  | .jmpRel8 _ => []
  | .pushM _ => [.esp]
  | .jzRel32 _ => []
  | .jnzRel32 _ => []

/-- The u32 an instruction may store to: the forms with "memory" in the "writes" column of 10_state.md R23, each with the
address its meaning computes. -/
def writesMem (s : State) : Instr → Option Word
  | .addMR m _ => some (s.addrOf m)
  | .subMR m _ => some (s.addrOf m)
  | .addMImm8 m _ => some (s.addrOf m)
  | .subMImm8 m _ => some (s.addrOf m)
  | .movMR m _ => some (s.addrOf m)
  | .movMImm32 m _ => some (s.addrOf m)
  | .pushR _ => some (s.reg .esp - 4)
  | .pushImm8 _ => some (s.reg .esp - 4)
  | .pushM _ => some (s.reg .esp - 4)
  | .callRel32 _ => some (s.reg .esp - 4)
  | _ => none

/-- The u32 that a storing form stores, from the state before it (42_data_movement.md R194 to R200, 43_arith_logic.md R211,
R216, R218, R223, 44_control_transfer.md R240); `none` for the forms that store nothing. -/
def storedWord (s : State) (i : Instr) : Option Word :=
  let old (m : MemOp) : Word := BitVec.ofNat 32 (wordNat s (s.addrOf m).toNat)
  match i with
  | .addMR m reg => some (old m + s.reg reg)
  | .subMR m reg => some (old m - s.reg reg)
  | .addMImm8 m imm => some (old m + sext imm)
  | .subMImm8 m imm => some (old m - sext imm)
  | .movMR _ reg => some (s.reg reg)
  | .movMImm32 _ imm => some imm
  | .pushR r => some (s.reg r)
  | .pushImm8 imm => some (if s.cfg.pushImm8Ext = .sign then sext imm else BitVec.ofNat 32 imm.toNat)
  | .pushM m => some (old m)
  | .callRel32 _ => some (nextPc i s)
  | _ => none

/-- The CMP forms. -/
def isCmp : Instr → Bool
  | .cmpRM _ _ => true
  | .cmpRImm8 _ _ => true
  | .cmpMImm8 _ _ => true
  | _ => false

/-- The conditional jumps. -/
def isJcc : Instr → Bool
  | .jzRel8 _ => true
  | .jnzRel8 _ => true
  | .jgRel8 _ => true
  | .jngRel8 _ => true
  | .jzRel32 _ => true
  | .jnzRel32 _ => true
  | _ => false

/-- The control transfers: CALL, RET, JMP and the conditional jumps. -/
def isTransfer : Instr → Bool
  | .callRel32 _ => true
  | .ret => true
  | .jmpRel8 _ => true
  | i => isJcc i

/-- Two states that may differ in the flags only. -/
def sameButFlags (t u : State) : Prop :=
  u.regs = t.regs ∧ u.pc = t.pc ∧ u.mem = t.mem ∧ u.status = t.status ∧ u.cfg = t.cfg

/-- What a fault record of each kind holds (60_exceptions.md R263 to R265). -/
def recordShape (s : State) (r : FaultRecord) : Prop :=
  match r.cause with
  | .unsupportedOpcode => r.bytes.length = 1 ∨ r.bytes.length = 2
  | .unsupportedAddressingMode => (r.bytes.length = 2 ∨ r.bytes.length = 3) ∧ r.bytes.head? ≠ some 0x0F
  | .outOfBounds addr width =>
    (width = 1 ∧ addr = s.pc + BitVec.ofNat 32 r.bytes.length ∧ s.cfg.memSize ≤ addr.toNat) ∨
    (width = 4 ∧ 1 ≤ r.bytes.length ∧ (s.cfg.memSize < addr.toNat + 4 ∨ s.cfg.eaOverflow = .fault))

end Sys2Proof.Claims

open Sys2Proof Sys2Proof.Machine Sys2Proof.Claims

/-! ## Encoding and decoding -/

/-- Words written out from 30_encoding.md R97 and the examples of 42 to 44 decode to the instructions they stand for,
whatever bytes follow. -/
def Obligations.SpecWordsDecode : Prop :=
  ∀ rest : List Byte,
    decode (0xB8 :: 0x05 :: 0x00 :: 0x00 :: 0x00 :: rest) = .instr (.movRImm32 .eax 5) rest ∧
    decode (0x89 :: 0xE5 :: rest) = .instr (.movRR .ebp .esp) rest ∧
    decode (0x89 :: 0x45 :: 0xFC :: rest) = .instr (.movMR { sib := false, base := .ebp, disp := .d8 0xFC } .eax) rest ∧
    decode (0x8D :: 0x4C :: 0x24 :: 0x04 :: rest) = .instr (.lea .ecx { sib := true, base := .esp, disp := .d8 4 }) rest ∧
    decode (0x8B :: 0x85 :: 0x00 :: 0x01 :: 0x00 :: 0x00 :: rest) =
      .instr (.movRM .eax { sib := false, base := .ebp, disp := .d32 0x100 }) rest ∧
    decode (0x81 :: 0xEC :: 0x00 :: 0x01 :: 0x00 :: 0x00 :: rest) = .instr (.subRImm32 .esp 0x100) rest ∧
    decode (0x83 :: 0x7D :: 0xFC :: 0x09 :: rest) = .instr (.cmpMImm8 { sib := false, base := .ebp, disp := .d8 0xFC } 9) rest ∧
    decode (0xD1 :: 0xE8 :: rest) = .instr (.shrR .eax) rest ∧
    decode (0x5D :: rest) = .instr (.popR .ebp) rest ∧
    decode (0xE8 :: 0x05 :: 0x00 :: 0x00 :: 0x00 :: rest) = .instr (.callRel32 5) rest ∧
    decode (0x0F :: 0x84 :: 0x01 :: 0x00 :: 0x00 :: 0x00 :: rest) = .instr (.jzRel32 1) rest

/-- Decoding the bytes of a well-formed instruction gives it back, every operand at every value, and leaves what follows
(30_encoding.md R97, R108). -/
def Obligations.DecodeOfEncode : Prop :=
  ∀ (i : Instr) (rest : List Byte), i.wf = true → decode (encode i ++ rest) = .instr i rest

/-- What the decoder reads is well formed, and its encoding is the bytes that were read: no byte sequence has two
decodings and no instruction two encodings (30_encoding.md R108). -/
def Obligations.EncodeOfDecode : Prop :=
  ∀ (bs rest : List Byte) (i : Instr), decode bs = .instr i rest → i.wf = true ∧ encode i ++ rest = bs

/-- The decoder consumes exactly the length that 30_encoding.md R81 finds in the first bytes, at most 11. -/
def Obligations.DecodedLengthIsTheFormula : Prop :=
  ∀ (bs rest : List Byte) (i : Instr), decode bs = .instr i rest →
    bs.length = specLength bs + rest.length ∧ 1 ≤ specLength bs ∧ specLength bs ≤ 11

/-- 30_encoding.md R105: each listed primary byte raises UnsupportedOpcode(byte) at once, whatever follows it, and no
other byte does. -/
def Obligations.UnsupportedPrimaryOpcodesAreRejected : Prop :=
  ∀ (op : Byte) (rest : List Byte),
    unsupportedPrimary op ↔ decode (op :: rest) = .reject (.unsupportedOpcode [op])

/-- Every rejection of the decoder is, at a running core, the fault entry of its own kind with the rejected bytes as the
record's (41_dispatch.md R164; 60_exceptions.md R263 to R265; 30_encoding.md R108): first for the bytes fetched at the pc,
then for rejected bytes that stand in Memory at the pc, and with them for an unsupported primary byte there. The pc that
stays is the spec's decision D10, the record its decision D11, that a fault is a next state log entry 2. -/
def Obligations.UnsupportedPrimaryOpcodesFault : Prop :=
  ∀ (s : State) (e : List Byte) (op : Byte), s.status = .running →
    (decode s.fetchWindow = .reject (.unsupportedOpcode e) → step s = .next (faulted s .unsupportedOpcode e)) ∧
    (decode s.fetchWindow = .reject (.unsupportedAddressingMode e) → step s = .next (faulted s .unsupportedAddressingMode e)) ∧
    (decode s.fetchWindow = .reject (.truncated e) →
      step s = .next (faulted s (.outOfBounds (s.pc + BitVec.ofNat 32 e.length) 1) e)) ∧
    (bytesAtPc s e → decode e = .reject (.unsupportedOpcode e) → step s = .next (faulted s .unsupportedOpcode e)) ∧
    (bytesAtPc s e → decode e = .reject (.unsupportedAddressingMode e) →
      step s = .next (faulted s .unsupportedAddressingMode e)) ∧
    (unsupportedPrimary op → s.pc.toNat < s.cfg.memSize → s.byteAt s.pc.toNat = op →
      step s = .next (faulted s .unsupportedOpcode [op]))

/-- 30_encoding.md R102: behind the escape, 84 is JZ rel32, 85 is JNZ rel32, every other byte is rejected. -/
def Obligations.EscapeByteSelectsJzJnz : Prop :=
  (∀ (d : Word) (rest : List Byte),
    decode (0x0F :: 0x84 :: (bytesOf d ++ rest)) = .instr (.jzRel32 d) rest ∧
    decode (0x0F :: 0x85 :: (bytesOf d ++ rest)) = .instr (.jnzRel32 d) rest) ∧
  (∀ (b2 : Byte) (rest : List Byte), b2 ≠ 0x84 → b2 ≠ 0x85 →
    decode (0x0F :: b2 :: rest) = .reject (.unsupportedOpcode [0x0F, b2]))

/-- Groups 81, 83, D1, FF and opcode C7: a ModRM.reg value that no row has is rejected, in every mode and before any
further byte (30_encoding.md R98 to R101, R103; the values are the spec's decisions D3, D5, D26, D27). -/
def Obligations.UnsupportedSubOpcodesFault : Prop :=
  ∀ (op m : Byte) (rest : List Byte), op ∈ ([0x81, 0x83, 0xD1, 0xFF, 0xC7] : List Byte) →
    ¬ hasRegRow op (regOf m) → ¬ hasMemRow op (regOf m) →
    decode (op :: m :: rest) = .reject (.unsupportedOpcode [op, m])

/-- Mode admission (30_encoding.md R92, R104; the spec's decision D6): with a row for the opcode and ModRM.reg, mode 00 is
rejected always, modes 01 and 10 where there is no "mem" row, mode 11 where there is no "reg" row, each before any
further byte. -/
def Obligations.UnadmittedModesFault : Prop :=
  ∀ (op m : Byte) (rest : List Byte), hasRegRow op (regOf m) ∨ hasMemRow op (regOf m) →
    modOf m = 0 ∨ ((modOf m = 1 ∨ modOf m = 2) ∧ ¬ hasMemRow op (regOf m)) ∨ (modOf m = 3 ∧ ¬ hasRegRow op (regOf m)) →
    decode (op :: m :: rest) = .reject (.unsupportedAddressingMode [op, m])

/-- 30_encoding.md R93: of the SIB bytes only scale 0 with index 100 is accepted; every other is rejected before the
displacement is fetched, and an accepted one is never rejected for its mode. -/
def Obligations.UnsupportedSibFaults : Prop :=
  ∀ (op m sib : Byte) (rest : List Byte), hasMemRow op (regOf m) → modOf m = 1 ∨ modOf m = 2 → rmOf m = 4 →
    (¬ (modOf sib = 0 ∧ regOf sib = 4) → decode (op :: m :: sib :: rest) = .reject (.unsupportedAddressingMode [op, m, sib])) ∧
    (modOf sib = 0 ∧ regOf sib = 4 → ∀ e, decode (op :: m :: sib :: rest) ≠ .reject (.unsupportedAddressingMode e))

/-- A rejection names bytes that were read: 1 or 2 for an opcode, 2 or 3 for a mode, and all of them, fewer than 11, where
the bytes end too early (60_exceptions.md R263 to R265, 30_encoding.md R108). -/
def Obligations.RejectionsNameTheirBytes : Prop :=
  ∀ (bs e : List Byte),
    (decode bs = .reject (.unsupportedOpcode e) → e <+: bs ∧ (e.length = 1 ∨ e.length = 2)) ∧
    (decode bs = .reject (.unsupportedAddressingMode e) → e <+: bs ∧ (e.length = 2 ∨ e.length = 3)) ∧
    (decode bs = .reject (.truncated e) → e = bs ∧ bs.length < 11)

/-! ## The step -/

/-- When the bytes at the pc of a running core decode to an instruction, the step is `exec` of it at the same state; `exec`
itself moves the pc behind the instruction's bytes (41_dispatch.md R160 to R162). -/
def Obligations.StepRunsDecodedInstruction : Prop :=
  ∀ (s : State) (i : Instr) (rest : List Byte), s.status = .running → decode s.fetchWindow = .instr i rest → step s = exec i s

/-- When the bytes of a well-formed instruction stand at the pc of a running core, inside Memory, the step is `exec` of it
(41_dispatch.md R160 to R162, 30_encoding.md R82; that addresses wrap is the spec's decision D14). -/
def Obligations.StepRunsInstructionInMemory : Prop :=
  ∀ (s : State) (i : Instr), s.status = .running → i.wf = true → bytesAtPc s (encode i) → step s = exec i s

/-- When only the first `n` bytes of an instruction lie inside Memory, the step is the OutOfBounds fault of fetching the
next one, width 1, with the bytes fetched before it; `n = 0` is a pc outside Memory (20_memory.md R56, 60_exceptions.md
R265, 10_state.md R24; the bound, the record and the wrap are the spec's decisions D9, D11, D14). -/
def Obligations.FetchOutOfBoundsFaults : Prop :=
  ∀ (s : State) (i : Instr) (n : Nat), s.status = .running → i.wf = true → n < (encode i).length →
    bytesAtPc s ((encode i).take n) → s.cfg.memSize ≤ (s.pc + BitVec.ofNat 32 n).toNat →
    step s = .next (faulted s (.outOfBounds (s.pc + BitVec.ofNat 32 n) 1) ((encode i).take n))

/-- A running core always has a next state: decoding is total (30_encoding.md R108, 41_dispatch.md R163) and a fault is a
next state, which is the model's choice, log entry 2. -/
def Obligations.RunningCoreAlwaysSteps : Prop :=
  ∀ s : State, s.status = .running → ∃ t, step s = .next t

/-- A core whose status is Halted or Fault has no step, and its state is final (41_dispatch.md R160, 10_state.md R28); that
`step` answers a named stop there is the model's choice, log entry 2. -/
def Obligations.TerminalStatusHasNoStep : Prop :=
  ∀ s : State, s.status ≠ .running → (∀ t, step s ≠ .next t) ∧ ∀ n, s.after n = s

/-- Every step keeps the invariant: MEM_SIZE in range, Memory canonical and inside MEM_SIZE, a fault record that names the
pc (20_memory.md R50, R51; 60_exceptions.md R266). -/
def Obligations.StepKeepsInvariant : Prop :=
  ∀ s t : State, s.Inv → step s = .next t → t.Inv

/-- The invariant holds at reset. -/
def Obligations.ResetMeetsInvariant : Prop := State.reset.Inv

/-- The invariant holds after every launch that is not refused (70_reset_and_hazards.md R290). -/
def Obligations.LoadedStateMeetsInvariant : Prop :=
  ∀ (cfg : Config) (image : List Byte) (s : State), State.load cfg image = some s → s.Inv

/-- The reset values of 10_state.md R34 in the default configuration; the flags' value is the spec's decision D12. -/
def Obligations.ResetValues : Prop :=
  (∀ r : Reg, State.reset.reg r = if r = .esp then 0x000FFFFC else 0) ∧ State.reset.pc = 0 ∧ State.reset.flags.word = 0 ∧
    State.reset.status = .running ∧ State.reset.cfg.memSize = 0x100000 ∧ ∀ a, State.reset.byteAt a = 0

/-- Launch (10_state.md R34, R40; 70_reset_and_hazards.md R290): it is refused exactly when MEM_SIZE is out of range or the
image is too long; else Memory is the image and then zeros, and the registers hold the reset values. The refusal of an
image that is too long is R40's (the spec's decision D16); the refusal of a MEM_SIZE outside the range of 00_scope.md R10 is
the model's choice, log entry 15. The flags' value is the spec's decision D12. -/
def Obligations.LoadedStateHoldsTheImage : Prop :=
  ∀ (cfg : Config) (image : List Byte),
    (State.load cfg image = none ↔ ¬ (4 ≤ cfg.memSize ∧ cfg.memSize ≤ 2 ^ 32) ∨ cfg.memSize < image.length) ∧
    ∀ s, State.load cfg image = some s →
      (∀ a, s.byteAt a = image.getD a 0) ∧ s.cfg = cfg ∧ s.status = .running ∧ s.pc = 0 ∧ s.flags.word = 0 ∧
      ∀ r : Reg, (s.reg r).toNat = if r = .esp then cfg.memSize - 4 else 0

/-- The halt sentinel: when the image does not reach the last four bytes, the u32 at ESP is 0 after the launch
(44_control_transfer.md R242). -/
def Obligations.SentinelStandsAtReset : Prop :=
  ∀ (cfg : Config) (image : List Byte) (s : State), State.load cfg image = some s → image.length ≤ cfg.memSize - 4 →
    (s.reg .esp).toNat = cfg.memSize - 4 ∧ wordNat s (s.reg .esp).toNat = 0

/-! ## Faults -/

/-- A step that ends in a fault changes only the status, and the record's eip is the address of the instruction's first
byte (41_dispatch.md R164, 60_exceptions.md R262, R266; the spec's decision D10). -/
def Obligations.FaultLeavesStateUnchanged : Prop :=
  ∀ (s t : State) (r : FaultRecord), s.status = .running → step s = .next t → t.status = .fault r →
    t.regs = s.regs ∧ t.flags = s.flags ∧ t.mem = s.mem ∧ t.pc = s.pc ∧ t.cfg = s.cfg ∧ r.eip = s.pc

/-- The bytes of a fault record are the bytes of Memory at its eip, all inside Memory, at most 11 (60_exceptions.md R263 to
R265; the record's layout is the spec's decision D11). -/
def Obligations.FaultRecordBytesStandAtEip : Prop :=
  ∀ (s t : State) (r : FaultRecord), s.status = .running → step s = .next t → t.status = .fault r →
    bytesAtPc s r.bytes ∧ r.bytes.length ≤ 11

/-- What each kind of record holds (60_exceptions.md R263 to R265; the spec's decision D11): 1 or 2 bytes for an opcode, 2
or 3 for a mode, and for OutOfBounds the width and the rejected address. -/
def Obligations.FaultRecordShape : Prop :=
  ∀ (s t : State) (r : FaultRecord), s.status = .running → step s = .next t → t.status = .fault r → recordShape s r

/-- From Running the status changes only by a fault, or to Halted by a RET whose popped u32 is 0 (41_dispatch.md R165,
44_control_transfer.md R241, R242). -/
def Obligations.OnlyFaultsAndRetEndARun : Prop :=
  ∀ s t : State, s.status = .running → step s = .next t →
    t.status = .running ∨ (∃ r, t.status = .fault r) ∨
    (t.status = .halted ∧ s.byteAt s.pc.toNat = 0xC3 ∧ popInBounds s ∧ wordNat s (s.reg .esp).toNat = 0)

/-- No instruction and no step writes the configuration (00_scope.md R10; that State holds it is the model's choice, log
entry 1). -/
def Obligations.ConfigurationIsFixed : Prop :=
  ∀ s t : State, (∀ i, exec i s = .next t → t.cfg = s.cfg) ∧ (step s = .next t → t.cfg = s.cfg)

/-! ## Whole-machine rules -/

/-- 40_alu_flags.md R143: only the CMP forms write flags. -/
def Obligations.OnlyCmpWritesFlags : Prop :=
  ∀ (i : Instr) (s t : State), isCmp i = false → exec i s = .next t → t.flags = s.flags

/-- The flags are read by the conditional jumps only, and CF by nothing: any other instruction gives the same registers,
pc, Memory and status whatever the flags were, and every instruction does whatever CF was (10_state.md R26). -/
def Obligations.FlagsAreReadOnlyByConditionalJumps : Prop :=
  ∀ (i : Instr) (s t : State), exec i s = .next t →
    (isJcc i = false → ∀ f : Flags, ∃ u, exec i { s with flags := f } = .next u ∧ sameButFlags t u) ∧
    (∀ c : Bool, ∃ u, exec i { s with flags := { s.flags with cf := c } } = .next u ∧ sameButFlags t u)

/-- An instruction changes no register but those in the "writes" column of 10_state.md R23. -/
def Obligations.RegisterWriters : Prop :=
  ∀ (i : Instr) (s t : State), exec i s = .next t → regsKept s t (writesReg i)

/-- An instruction without "memory" in the "writes" column of 10_state.md R23 changes no byte; one with it changes no byte
outside the four at the address its meaning computes. -/
def Obligations.MemoryWriters : Prop :=
  ∀ (i : Instr) (s t : State), exec i s = .next t →
    (writesMem s i = none → memKept s t) ∧
    (∀ a, writesMem s i = some a → ∀ x, x < a.toNat ∨ a.toNat + 4 ≤ x → t.byteAt x = s.byteAt x)

/-- An instruction that is no control transfer and raises nothing leaves the pc behind its bytes (10_state.md R24; that the
pc wraps is the spec's decision D14). -/
def Obligations.PcOfStraightLineInstructions : Prop :=
  ∀ (i : Instr) (s t : State), isTransfer i = false → s.status = .running → exec i s = .next t → t.status = .running →
    t.pc = nextPc i s

/-! ## Memory -/

/-- A read checks its bounds first; the byte at addr is bits 0 to 7, addr+1 is bits 8 to 15, and so on (20_memory.md R52,
R53, R56; that addr + n does not wrap is the spec's decision D9). -/
def Obligations.MemReadIsLittleEndian : Prop :=
  ∀ (s : State) (a : Word),
    (a.toNat + 1 ≤ s.cfg.memSize → s.memRead8 a = .ok (s.byteAt a.toNat)) ∧
    (¬ a.toNat + 1 ≤ s.cfg.memSize → s.memRead8 a = .error (.outOfBounds a 1)) ∧
    (a.toNat + 4 ≤ s.cfg.memSize → ∃ v, s.memRead32 a = .ok v ∧ v.toNat = wordNat s a.toNat) ∧
    (¬ a.toNat + 4 ≤ s.cfg.memSize → s.memRead32 a = .error (.outOfBounds a 4))

/-- A 32-bit write inside Memory is read back whole and byte by byte, and changes nothing else (20_memory.md R55, R57, R59;
that the check comes before any store is the spec's decision D9). -/
def Obligations.MemWriteThenRead : Prop :=
  ∀ (s : State) (a v : Word), s.mem.wf = true → a.toNat + 4 ≤ s.cfg.memSize →
    ∃ t, s.memWrite32 a v = .ok t ∧ t.memRead32 a = .ok v ∧
      (∀ k, k < 4 → (t.byteAt (a.toNat + k)).toNat = v.toNat / 2 ^ (8 * k) % 256) ∧
      (∀ x, x < a.toNat ∨ a.toNat + 4 ≤ x → t.byteAt x = s.byteAt x) ∧
      t.regs = s.regs ∧ t.flags = s.flags ∧ t.pc = s.pc ∧ t.status = s.status ∧ t.cfg = s.cfg

/-- Bounds: a write is rejected exactly when addr + n > MEM_SIZE as unbounded integers (20_memory.md R54 to R56; the spec's
decision D9). -/
def Obligations.MemWriteBounds : Prop :=
  ∀ (s : State) (a v : Word),
    (s.cfg.memSize < a.toNat + 4 ↔ s.memWrite32 a v = .error (.outOfBounds a 4)) ∧
    (s.cfg.memSize < a.toNat + 1 ↔ s.memWrite8 a v = .error (.outOfBounds a 1)) ∧
    (∀ t, s.memWrite8 a v = .ok t → s.mem.wf = true → (t.byteAt a.toNat).toNat = v.toNat % 256 ∧
      ∀ x, x ≠ a.toNat → t.byteAt x = s.byteAt x)

/-- A store is seen by the next fetch, for each of the ten storing forms: whenever one raises nothing, a fetch at the address
its meaning stores to finds the four bytes of the u32 it stores (20_memory.md R67, the spec's decision D23). -/
def Obligations.StoreIsSeenByTheNextFetch : Prop :=
  ∀ (s t : State) (i : Instr) (a : Word), s.Inv → s.status = .running → writesMem s i = some a →
    exec i s = .next t → t.status = .running →
    ∃ v, storedWord s i = some v ∧ ((t.setPc a).fetchWindow).take 4 = bytesOf v

/-! ## ALU, flags, addresses -/

/-- 40_alu_flags.md R132 to R135, for both calls of Compare: CF is the unsigned borrow, ZF equality, SF bit 31 of the
difference, OF whether the exact signed difference is no i32. -/
def Obligations.CompareFlags : Prop :=
  (∀ a b : Word, compareValue a b = cmpFlags a b) ∧
  (∀ (a : Word) (i : Byte), compareImm8 a i = cmpFlags a (sext i))

/-- The closed form of OF (40_alu_flags.md R137, which the spec marks as its own inference). -/
def Obligations.OverflowClosedForm : Prop :=
  ∀ a b : Word, (compareValue a b).of = ((a ^^^ b) &&& (a ^^^ (a - b))).msb

/-- What the conditions mean after a compare (40_alu_flags.md R145, which the spec marks as its own inference, and for NZ
R144). -/
def Obligations.ConditionsAfterCompare : Prop :=
  ∀ a b : Word,
    (Cond.z.holds (compareValue a b) = true ↔ a = b) ∧
    (Cond.nz.holds (compareValue a b) = true ↔ a ≠ b) ∧
    (Cond.g.holds (compareValue a b) = true ↔ b.toInt < a.toInt) ∧
    (Cond.ng.holds (compareValue a b) = true ↔ a.toInt ≤ b.toInt) ∧
    ((compareValue a b).cf = true ↔ a.toNat < b.toNat)

/-- The effective address is base + displacement modulo 2^32, an 8-bit displacement sign-extended; under
`P_EA_OVERFLOW = fault` a signed overflow raises OutOfBounds (30_encoding.md R87 to R90, R94; the default is the spec's
decision D8). -/
def Obligations.EffectiveAddress : Prop :=
  ∀ (s : State) (m : MemOp),
    s.addrOf m = s.reg m.base + dispValue m.disp ∧
    (eaOk s m → s.ea m = .ok (s.reg m.base + dispValue m.disp)) ∧
    (¬ eaOk s m → s.ea m = .error (.outOfBounds (s.reg m.base + dispValue m.disp) 4))

/-! ## Data movement -/

/-- MOV r32, imm32 and MOV r/m32(reg), r32 (42_data_movement.md R192, R193), ESP included. -/
def Obligations.MovToRegister : Prop :=
  ∀ (s : State) (rd rs : Reg) (imm : Word),
    RegResult (.movRImm32 rd imm) s rd imm.toNat ∧ RegResult (.movRR rd rs) s rd (s.reg rs).toNat

/-- MOV r32, m32, ADD r32, m32 and SUB r32, m32 (42_data_movement.md R195, 43_arith_logic.md R212, R219). -/
def Obligations.LoadFromMemory : Prop :=
  ∀ (s : State) (rd : Reg) (m : MemOp), eaOk s m → operandInBounds s m →
    RegResult (.movRM rd m) s rd (wordNat s (s.addrOf m).toNat) ∧
    RegResult (.addRM rd m) s rd (((s.reg rd).toNat + wordNat s (s.addrOf m).toNat) % 2 ^ 32) ∧
    RegResult (.subRM rd m) s rd (((s.reg rd).toNat + 2 ^ 32 - wordNat s (s.addrOf m).toNat) % 2 ^ 32)

/-- MOV m32, r32 and MOV m32, imm32 (42_data_movement.md R194, R196). -/
def Obligations.StoreToMemory : Prop :=
  ∀ (s : State) (m : MemOp) (rs : Reg) (imm : Word), s.mem.wf = true → eaOk s m → operandInBounds s m →
    MemResult (.movMR m rs) s (s.addrOf m).toNat (s.reg rs).toNat ∧
    MemResult (.movMImm32 m imm) s (s.addrOf m).toNat imm.toNat

/-- LEA writes the address itself, with no access, so also for an address outside Memory (42_data_movement.md R197). -/
def Obligations.LeaWritesTheAddress : Prop :=
  ∀ (s : State) (rd : Reg) (m : MemOp), eaOk s m →
    RegResult (.lea rd m) s rd (((s.reg m.base).toNat + (dispValue m.disp).toNat) % 2 ^ 32)

/-- The PUSH forms (42_data_movement.md R190, R198 to R200): PUSH ESP stores the ESP before the decrement (the spec's
decision D13), PUSH imm8 extends as P_PUSH_IMM8_EXT says (decision D19), PUSH m32 reads its operand with the ESP before
the push. -/
def Obligations.PushStoresBelowTheTop : Prop :=
  ∀ (s : State) (r : Reg) (imm : Byte) (m : MemOp), s.mem.wf = true → pushInBounds s →
    PushResult (.pushR r) s (s.reg r).toNat (nextPc (.pushR r) s) ∧
    (s.cfg.pushImm8Ext = .zero → PushResult (.pushImm8 imm) s imm.toNat (nextPc (.pushImm8 imm) s)) ∧
    (s.cfg.pushImm8Ext = .sign → PushResult (.pushImm8 imm) s (sext imm).toNat (nextPc (.pushImm8 imm) s)) ∧
    (eaOk s m → operandInBounds s m →
      PushResult (.pushM m) s (wordNat s (s.addrOf m).toNat) (nextPc (.pushM m) s))

/-- POP r32 (42_data_movement.md R191, R201): the register holds the u32 at ESP and ESP is 4 higher; POP ESP leaves the
loaded value (the spec's decision D13). -/
def Obligations.PopLoadsTheTop : Prop :=
  ∀ (s : State) (r : Reg), popInBounds s →
    ∃ t, exec (.popR r) s = .next t ∧ (t.reg r).toNat = wordNat s (s.reg .esp).toNat ∧
      (r ≠ .esp → t.reg .esp = s.reg .esp + 4) ∧ regsKept s t [r, .esp] ∧ memKept s t ∧ t.flags = s.flags ∧
      t.status = s.status ∧ t.cfg = s.cfg ∧ t.pc = nextPc (.popR r) s

/-- PUSH r and then POP r' move the value and restore ESP (42_data_movement.md R202). -/
def Obligations.PushPopRoundTrip : Prop :=
  ∀ (s : State) (r r' : Reg), r ≠ .esp → r' ≠ .esp → s.mem.wf = true → pushInBounds s →
    ∃ t u, exec (.pushR r) s = .next t ∧ exec (.popR r') t = .next u ∧ u.reg r' = s.reg r ∧ u.reg .esp = s.reg .esp ∧
      regsKept s u [r'] ∧ u.flags = s.flags ∧ u.status = s.status

/-! ## Arithmetic and logic -/

/-- The ADD forms with a register destination and no memory operand (43_arith_logic.md R210, R213 to R215): the sum modulo
2^32, an imm8 sign-extended, no flag written. -/
def Obligations.AddToRegister : Prop :=
  ∀ (s : State) (rd rs : Reg) (imm : Word) (imm8 : Byte),
    RegResult (.addRR rd rs) s rd (((s.reg rd).toNat + (s.reg rs).toNat) % 2 ^ 32) ∧
    RegResult (.addEaxImm32 imm) s .eax (((s.reg .eax).toNat + imm.toNat) % 2 ^ 32) ∧
    RegResult (.addRImm32 rd imm) s rd (((s.reg rd).toNat + imm.toNat) % 2 ^ 32) ∧
    RegResult (.addRImm8 rd imm8) s rd (((s.reg rd).toNat + (sext imm8).toNat) % 2 ^ 32)

/-- The SUB forms with a register destination and no memory operand (43_arith_logic.md R217, R220 to R222). -/
def Obligations.SubFromRegister : Prop :=
  ∀ (s : State) (rd rs : Reg) (imm : Word) (imm8 : Byte),
    RegResult (.subRR rd rs) s rd (((s.reg rd).toNat + 2 ^ 32 - (s.reg rs).toNat) % 2 ^ 32) ∧
    RegResult (.subEaxImm32 imm) s .eax (((s.reg .eax).toNat + 2 ^ 32 - imm.toNat) % 2 ^ 32) ∧
    RegResult (.subRImm32 rd imm) s rd (((s.reg rd).toNat + 2 ^ 32 - imm.toNat) % 2 ^ 32) ∧
    RegResult (.subRImm8 rd imm8) s rd (((s.reg rd).toNat + 2 ^ 32 - (sext imm8).toNat) % 2 ^ 32)

/-- AND r32, imm8 with a sign-extended immediate, XOR of two registers, SHR by one (43_arith_logic.md R224, R225, R229). -/
def Obligations.LogicOnRegister : Prop :=
  ∀ (s : State) (rd rs : Reg) (imm8 : Byte),
    RegResult (.andRImm8 rd imm8) s rd (s.reg rd &&& sext imm8).toNat ∧
    RegResult (.xorRR rd rs) s rd (s.reg rd ^^^ s.reg rs).toNat ∧
    RegResult (.shrR rd) s rd ((s.reg rd).toNat / 2)

/-- The ADD and SUB forms with a memory destination (43_arith_logic.md R211, R216, R218, R223): the operand is replaced by
the sum or difference modulo 2^32 at the same address, no flag written. -/
def Obligations.AddSubOnMemory : Prop :=
  ∀ (s : State) (m : MemOp) (rs : Reg) (imm8 : Byte), s.mem.wf = true → eaOk s m → operandInBounds s m →
    let a := (s.addrOf m).toNat
    MemResult (.addMR m rs) s a ((wordNat s a + (s.reg rs).toNat) % 2 ^ 32) ∧
    MemResult (.addMImm8 m imm8) s a ((wordNat s a + (sext imm8).toNat) % 2 ^ 32) ∧
    MemResult (.subMR m rs) s a ((wordNat s a + 2 ^ 32 - (s.reg rs).toNat) % 2 ^ 32) ∧
    MemResult (.subMImm8 m imm8) s a ((wordNat s a + 2 ^ 32 - (sext imm8).toNat) % 2 ^ 32)

/-- The CMP forms write all four flags and nothing else but the pc (43_arith_logic.md R226 to R228, 40_alu_flags.md
R131). -/
def Obligations.CmpWritesTheFlags : Prop :=
  ∀ (s : State) (r : Reg) (m : MemOp) (imm8 : Byte),
    CmpResult (.cmpRImm8 r imm8) s (s.reg r) (sext imm8) ∧
    (eaOk s m → operandInBounds s m →
      CmpResult (.cmpRM r m) s (s.reg r) (BitVec.ofNat 32 (wordNat s (s.addrOf m).toNat)) ∧
      CmpResult (.cmpMImm8 m imm8) s (BitVec.ofNat 32 (wordNat s (s.addrOf m).toNat)) (sext imm8))

/-! ## Control transfer -/

/-- CALL rel32: the address behind the instruction is pushed, and the pc is that address plus the displacement, modulo 2^32
(44_control_transfer.md R240; the wrap is the spec's decision D14). -/
def Obligations.CallPushesTheReturnAddress : Prop :=
  ∀ (s : State) (rel : Word), s.mem.wf = true → pushInBounds s →
    PushResult (.callRel32 rel) s (nextPc (.callRel32 rel) s).toNat (nextPc (.callRel32 rel) s + rel)

/-- RET pops a u32: 0 halts with the pc behind the RET byte (the spec's decision D15), any other value is the new pc
(44_control_transfer.md R241). -/
def Obligations.RetPopsThePcOrHalts : Prop :=
  ∀ s : State, popInBounds s →
    ∃ t, exec .ret s = .next t ∧ t.reg .esp = s.reg .esp + 4 ∧ regsKept s t [.esp] ∧ memKept s t ∧ t.flags = s.flags ∧
      t.cfg = s.cfg ∧
      (wordNat s (s.reg .esp).toNat = 0 → t.status = .halted ∧ t.pc = s.pc + 1) ∧
      (wordNat s (s.reg .esp).toNat ≠ 0 → t.status = s.status ∧ t.pc.toNat = wordNat s (s.reg .esp).toNat)

/-- JMP rel8: the pc is the address behind the instruction plus the sign-extended displacement, and nothing else changes
(44_control_transfer.md R243). -/
def Obligations.JmpIsRelative : Prop :=
  ∀ (s : State) (rel : Byte), JumpResult (.jmpRel8 rel) s true (sext rel)

/-- The conditional jumps: taken or not by ZF, SF and OF alone, relative to the address behind the instruction, nothing
else changes (44_control_transfer.md R244 to R250, 40_alu_flags.md R144). -/
def Obligations.ConditionalJumps : Prop :=
  ∀ (s : State) (rel8 : Byte) (rel : Word),
    JumpResult (.jzRel8 rel8) s s.flags.zf (sext rel8) ∧
    JumpResult (.jnzRel8 rel8) s (!s.flags.zf) (sext rel8) ∧
    JumpResult (.jgRel8 rel8) s (!s.flags.zf && s.flags.sf == s.flags.of) (sext rel8) ∧
    JumpResult (.jngRel8 rel8) s (s.flags.zf || s.flags.sf != s.flags.of) (sext rel8) ∧
    JumpResult (.jzRel32 rel) s s.flags.zf rel ∧
    JumpResult (.jnzRel32 rel) s (!s.flags.zf) rel

/-- 44_control_transfer.md R251: NOP, encoded 90, changes nothing but the pc, which advances by 1. -/
def Obligations.NopAdvancesThePc : Prop :=
  encode .nop = [0x90] ∧
  ∀ s : State,
    exec .nop s = .next { s with pc := s.pc + 1 } ∧
    (s.status = .running → s.pc.toNat < s.cfg.memSize → s.byteAt s.pc.toNat = 0x90 → step s = .next { s with pc := s.pc + 1 })

/-! ## Where instructions trap -/

/-- Every form that accesses its memory operand (all but LEA) raises OutOfBounds(EA, 4), with all its bytes in the record,
where the operand leaves Memory (20_memory.md R56, 60_exceptions.md R265; the spec's decisions D9 to D11). -/
def Obligations.DataAccessOutOfBoundsFaults : Prop :=
  ∀ (s : State) (i : Instr) (m : MemOp), i.memOp? = some m → (∀ r, i ≠ .lea r m) → eaOk s m → ¬ operandInBounds s m →
    exec i s = .next (faulted s (.outOfBounds (s.addrOf m) 4) (encode i))

/-- PUSH, CALL, POP and RET raise OutOfBounds at the stack slot that leaves Memory; PUSH m32 does so after its read
succeeded (42_data_movement.md R190, R191; 60_exceptions.md R265, R267; the spec's decisions D9 to D11). -/
def Obligations.StackAccessOutOfBoundsFaults : Prop :=
  ∀ (s : State) (r : Reg) (imm8 : Byte) (m : MemOp) (rel : Word),
    (¬ pushInBounds s →
      (∀ i ∈ ([.pushR r, .pushImm8 imm8, .callRel32 rel] : List Instr),
        exec i s = .next (faulted s (.outOfBounds (s.reg .esp - 4) 4) (encode i))) ∧
      (eaOk s m → operandInBounds s m →
        exec (.pushM m) s = .next (faulted s (.outOfBounds (s.reg .esp - 4) 4) (encode (.pushM m))))) ∧
    (¬ popInBounds s →
      ∀ i ∈ ([.popR r, .ret] : List Instr), exec i s = .next (faulted s (.outOfBounds (s.reg .esp) 4) (encode i)))

/-- Under `P_EA_OVERFLOW = fault` every form with a memory operand, LEA too, raises OutOfBounds at the wrapped address when
the signed address sum overflows (30_encoding.md R94). That the record holds the immediate's bytes too is the model's
reading of 30_encoding.md R109 against 41_dispatch.md R166, log entry 3. -/
def Obligations.AddressOverflowFaults : Prop :=
  ∀ (s : State) (i : Instr) (m : MemOp), i.memOp? = some m → ¬ eaOk s m →
    exec i s = .next (faulted s (.outOfBounds (s.reg m.base + dispValue m.disp) 4) (encode i))
end

