-- ==== Sys2Proof/Laws/Bytes.lean ====
section
/-! SUPPORT. The bit-field, byte-order and register-number helpers of the decoder undo each other. -/

namespace Sys2Proof

@[simp] theorem Reg.ofNum_num (r : Reg) : Reg.ofNum r.num = r := by cases r <;> rfl

@[simp] theorem Reg.num_ofNum (n : BitVec 3) : (Reg.ofNum n).num = n := by revert n; decide

@[simp] theorem field76_packByte (h : BitVec 2) (m l : BitVec 3) : field76 (packByte h m l) = h := by
  revert h m l; decide

@[simp] theorem field53_packByte (h : BitVec 2) (m l : BitVec 3) : field53 (packByte h m l) = m := by
  revert h m l; decide

@[simp] theorem field20_packByte (h : BitVec 2) (m l : BitVec 3) : field20 (packByte h m l) = l := by
  revert h m l; decide

/-- A ModRM or SIB byte is the three fields it splits into. -/
@[simp] theorem packByte_fields (b : Byte) : packByte (field76 b) (field53 b) (field20 b) = b := by
  revert b; decide

@[simp] theorem length_bytesOf (w : Word) : (bytesOf w).length = 4 := rfl

/-- The four bytes of a word, read as a little-endian number, are the word. -/
theorem wordOf_toNat (b0 b1 b2 b3 : Byte) :
    (wordOf b0 b1 b2 b3).toNat = b0.toNat + 256 * b1.toNat + 65536 * b2.toNat + 16777216 * b3.toNat := by
  have h0 := b0.isLt
  have h1 := b1.isLt
  have h2 := b2.isLt
  simp only [wordOf, BitVec.toNat_append]
  rw [← Nat.shiftLeft_add_eq_or_of_lt h2, ← Nat.shiftLeft_add_eq_or_of_lt h1, ← Nat.shiftLeft_add_eq_or_of_lt h0]
  simp only [Nat.shiftLeft_eq]
  omega

theorem byteOf_toNat (w : Word) (k : Nat) : (byteOf w k).toNat = w.toNat / 2 ^ (8 * k) % 256 := by
  simp [byteOf, BitVec.extractLsb'_toNat, Nat.shiftRight_eq_div_pow]

@[simp] theorem wordOf_byteOf (w : Word) : wordOf (byteOf w 0) (byteOf w 1) (byteOf w 2) (byteOf w 3) = w := by
  apply BitVec.eq_of_toNat_eq
  have := w.isLt
  simp only [wordOf_toNat, byteOf_toNat]
  omega

@[simp] theorem byteOf_wordOf_zero (b0 b1 b2 b3 : Byte) : byteOf (wordOf b0 b1 b2 b3) 0 = b0 := by
  apply BitVec.eq_of_toNat_eq
  have := b0.isLt
  simp only [wordOf_toNat, byteOf_toNat]
  omega

@[simp] theorem byteOf_wordOf_one (b0 b1 b2 b3 : Byte) : byteOf (wordOf b0 b1 b2 b3) 1 = b1 := by
  apply BitVec.eq_of_toNat_eq
  have := b0.isLt
  have := b1.isLt
  simp only [wordOf_toNat, byteOf_toNat]
  omega

@[simp] theorem byteOf_wordOf_two (b0 b1 b2 b3 : Byte) : byteOf (wordOf b0 b1 b2 b3) 2 = b2 := by
  apply BitVec.eq_of_toNat_eq
  have := b0.isLt
  have := b1.isLt
  have := b2.isLt
  simp only [wordOf_toNat, byteOf_toNat]
  omega

@[simp] theorem byteOf_wordOf_three (b0 b1 b2 b3 : Byte) : byteOf (wordOf b0 b1 b2 b3) 3 = b3 := by
  apply BitVec.eq_of_toNat_eq
  have := b0.isLt
  have := b1.isLt
  have := b2.isLt
  have := b3.isLt
  simp only [wordOf_toNat, byteOf_toNat]
  omega

end Sys2Proof
end

