-- ==== Sys2Proof/Laws/State.lean ====
section
/-! SUPPORT. One lemma per field per update of State, and the register file's read-after-write laws. Later proofs use
these and never unfold a record update. -/

namespace Sys2Proof.Machine

/-! ## Fields of the updates -/

@[simp] theorem State.regs_setReg (s : State) (r : Reg) (v : Word) : (s.setReg r v).regs = s.regs.set r v := rfl
@[simp] theorem State.pc_setReg (s : State) (r : Reg) (v : Word) : (s.setReg r v).pc = s.pc := rfl
@[simp] theorem State.flags_setReg (s : State) (r : Reg) (v : Word) : (s.setReg r v).flags = s.flags := rfl
@[simp] theorem State.mem_setReg (s : State) (r : Reg) (v : Word) : (s.setReg r v).mem = s.mem := rfl
@[simp] theorem State.status_setReg (s : State) (r : Reg) (v : Word) : (s.setReg r v).status = s.status := rfl
@[simp] theorem State.cfg_setReg (s : State) (r : Reg) (v : Word) : (s.setReg r v).cfg = s.cfg := rfl

@[simp] theorem State.regs_setPc (s : State) (v : Word) : (s.setPc v).regs = s.regs := rfl
@[simp] theorem State.pc_setPc (s : State) (v : Word) : (s.setPc v).pc = v := rfl
@[simp] theorem State.flags_setPc (s : State) (v : Word) : (s.setPc v).flags = s.flags := rfl
@[simp] theorem State.mem_setPc (s : State) (v : Word) : (s.setPc v).mem = s.mem := rfl
@[simp] theorem State.status_setPc (s : State) (v : Word) : (s.setPc v).status = s.status := rfl
@[simp] theorem State.cfg_setPc (s : State) (v : Word) : (s.setPc v).cfg = s.cfg := rfl

@[simp] theorem State.regs_setFlags (s : State) (f : Flags) : (s.setFlags f).regs = s.regs := rfl
@[simp] theorem State.pc_setFlags (s : State) (f : Flags) : (s.setFlags f).pc = s.pc := rfl
@[simp] theorem State.flags_setFlags (s : State) (f : Flags) : (s.setFlags f).flags = f := rfl
@[simp] theorem State.mem_setFlags (s : State) (f : Flags) : (s.setFlags f).mem = s.mem := rfl
@[simp] theorem State.status_setFlags (s : State) (f : Flags) : (s.setFlags f).status = s.status := rfl
@[simp] theorem State.cfg_setFlags (s : State) (f : Flags) : (s.setFlags f).cfg = s.cfg := rfl

@[simp] theorem State.regs_setStatus (s : State) (v : Status) : (s.setStatus v).regs = s.regs := rfl
@[simp] theorem State.pc_setStatus (s : State) (v : Status) : (s.setStatus v).pc = s.pc := rfl
@[simp] theorem State.flags_setStatus (s : State) (v : Status) : (s.setStatus v).flags = s.flags := rfl
@[simp] theorem State.mem_setStatus (s : State) (v : Status) : (s.setStatus v).mem = s.mem := rfl
@[simp] theorem State.status_setStatus (s : State) (v : Status) : (s.setStatus v).status = v := rfl
@[simp] theorem State.cfg_setStatus (s : State) (v : Status) : (s.setStatus v).cfg = s.cfg := rfl

@[simp] theorem State.regs_setByte (s : State) (a : Nat) (b : Byte) : (s.setByte a b).regs = s.regs := rfl
@[simp] theorem State.pc_setByte (s : State) (a : Nat) (b : Byte) : (s.setByte a b).pc = s.pc := rfl
@[simp] theorem State.flags_setByte (s : State) (a : Nat) (b : Byte) : (s.setByte a b).flags = s.flags := rfl
@[simp] theorem State.mem_setByte (s : State) (a : Nat) (b : Byte) : (s.setByte a b).mem = s.mem.set a b := rfl
@[simp] theorem State.status_setByte (s : State) (a : Nat) (b : Byte) : (s.setByte a b).status = s.status := rfl
@[simp] theorem State.cfg_setByte (s : State) (a : Nat) (b : Byte) : (s.setByte a b).cfg = s.cfg := rfl

@[simp] theorem State.pc_advance (s : State) (n : Nat) : (s.advance n).pc = s.pc + BitVec.ofNat 32 n := rfl
@[simp] theorem State.regs_advance (s : State) (n : Nat) : (s.advance n).regs = s.regs := rfl
@[simp] theorem State.flags_advance (s : State) (n : Nat) : (s.advance n).flags = s.flags := rfl
@[simp] theorem State.mem_advance (s : State) (n : Nat) : (s.advance n).mem = s.mem := rfl
@[simp] theorem State.status_advance (s : State) (n : Nat) : (s.advance n).status = s.status := rfl
@[simp] theorem State.cfg_advance (s : State) (n : Nat) : (s.advance n).cfg = s.cfg := rfl

@[simp] theorem State.pc_jump (s : State) (d : Word) : (s.jump d).pc = s.pc + d := rfl
@[simp] theorem State.regs_jump (s : State) (d : Word) : (s.jump d).regs = s.regs := rfl
@[simp] theorem State.flags_jump (s : State) (d : Word) : (s.jump d).flags = s.flags := rfl
@[simp] theorem State.mem_jump (s : State) (d : Word) : (s.jump d).mem = s.mem := rfl
@[simp] theorem State.status_jump (s : State) (d : Word) : (s.jump d).status = s.status := rfl
@[simp] theorem State.cfg_jump (s : State) (d : Word) : (s.jump d).cfg = s.cfg := rfl

@[simp] theorem State.pc_raise (s : State) (c : FaultCause) (bs : List Byte) : (s.raise c bs).pc = s.pc := rfl
@[simp] theorem State.regs_raise (s : State) (c : FaultCause) (bs : List Byte) : (s.raise c bs).regs = s.regs := rfl
@[simp] theorem State.flags_raise (s : State) (c : FaultCause) (bs : List Byte) : (s.raise c bs).flags = s.flags := rfl
@[simp] theorem State.mem_raise (s : State) (c : FaultCause) (bs : List Byte) : (s.raise c bs).mem = s.mem := rfl
@[simp] theorem State.status_raise (s : State) (c : FaultCause) (bs : List Byte) :
    (s.raise c bs).status = .fault { cause := c, eip := s.pc, bytes := bs } := rfl
@[simp] theorem State.cfg_raise (s : State) (c : FaultCause) (bs : List Byte) : (s.raise c bs).cfg = s.cfg := rfl

/-! ## Registers -/

@[simp] theorem Regs.get_set (rs : Regs) (r q : Reg) (v : Word) : (rs.set r v).get q = if q = r then v else rs.get q := by
  cases r <;> cases q <;> rfl

/-- Two register files that agree on every register are equal. -/
theorem Regs.ext_get {a b : Regs} (h : ∀ r, a.get r = b.get r) : a = b := by
  cases a; cases b
  simp only [Regs.mk.injEq]
  exact ⟨h .eax, h .ecx, h .edx, h .ebx, h .esp, h .ebp, h .esi, h .edi⟩

@[simp] theorem State.reg_setReg (s : State) (r q : Reg) (v : Word) :
    (s.setReg r v).reg q = if q = r then v else s.reg q := Regs.get_set ..
@[simp] theorem State.reg_setPc (s : State) (v : Word) (q : Reg) : (s.setPc v).reg q = s.reg q := rfl
@[simp] theorem State.reg_setFlags (s : State) (f : Flags) (q : Reg) : (s.setFlags f).reg q = s.reg q := rfl
@[simp] theorem State.reg_setStatus (s : State) (v : Status) (q : Reg) : (s.setStatus v).reg q = s.reg q := rfl
@[simp] theorem State.reg_setByte (s : State) (a : Nat) (b : Byte) (q : Reg) : (s.setByte a b).reg q = s.reg q := rfl
@[simp] theorem State.reg_advance (s : State) (n : Nat) (q : Reg) : (s.advance n).reg q = s.reg q := rfl
@[simp] theorem State.reg_jump (s : State) (d : Word) (q : Reg) : (s.jump d).reg q = s.reg q := rfl
@[simp] theorem State.reg_raise (s : State) (c : FaultCause) (bs : List Byte) (q : Reg) : (s.raise c bs).reg q = s.reg q := rfl

/-! ## What depends on Memory alone -/

@[simp] theorem State.byteAt_setReg (s : State) (r : Reg) (v : Word) (x : Nat) : (s.setReg r v).byteAt x = s.byteAt x := rfl
@[simp] theorem State.byteAt_setPc (s : State) (v : Word) (x : Nat) : (s.setPc v).byteAt x = s.byteAt x := rfl
@[simp] theorem State.byteAt_setFlags (s : State) (f : Flags) (x : Nat) : (s.setFlags f).byteAt x = s.byteAt x := rfl
@[simp] theorem State.byteAt_setStatus (s : State) (v : Status) (x : Nat) : (s.setStatus v).byteAt x = s.byteAt x := rfl
@[simp] theorem State.byteAt_advance (s : State) (n x : Nat) : (s.advance n).byteAt x = s.byteAt x := rfl
@[simp] theorem State.byteAt_jump (s : State) (d : Word) (x : Nat) : (s.jump d).byteAt x = s.byteAt x := rfl
@[simp] theorem State.byteAt_raise (s : State) (c : FaultCause) (bs : List Byte) (x : Nat) :
    (s.raise c bs).byteAt x = s.byteAt x := rfl

end Sys2Proof.Machine
end

