-- ==== Sys2Proof/Laws/Memory.lean ====
section
/-! SUPPORT. The laws of Memory: read after write, and that every memory operation keeps the canonical form and the
bound. -/

namespace Sys2Proof.Machine

/-! ## The canonical form -/

theorem Memory.wfFrom_mono {lo lo' : Nat} (h : lo' ≤ lo) : ∀ {m : Memory}, Memory.wfFrom lo m = true → Memory.wfFrom lo' m = true
  | [], _ => rfl
  | (k, v) :: m, hm => by
    simp only [Memory.wfFrom, Bool.and_eq_true, decide_eq_true_eq] at hm ⊢
    exact ⟨⟨by omega, hm.1.2⟩, hm.2⟩

theorem Memory.wfFrom_set {b : Byte} {a : Nat} :
    ∀ {m : Memory} {lo : Nat}, lo ≤ a → Memory.wfFrom lo m = true → Memory.wfFrom lo (m.set a b) = true
  | [], lo, hlo, _ => by
    unfold Memory.set
    split
    · rfl
    · simp_all [Memory.wfFrom]
  | (k, v) :: m, lo, hlo, hm => by
    have hm' := hm
    simp only [Memory.wfFrom, Bool.and_eq_true, decide_eq_true_eq] at hm'
    obtain ⟨⟨hk, hv⟩, hrest⟩ := hm'
    unfold Memory.set
    split
    · next hak =>
      split
      · exact hm
      · next hb =>
        simp only [Memory.wfFrom, Bool.and_eq_true, decide_eq_true_eq]
        exact ⟨⟨hlo, hb⟩, ⟨hak, hv⟩, hrest⟩
    · split
      · next hak =>
        subst hak
        split
        · exact Memory.wfFrom_mono (by omega) hrest
        · next hb =>
          simp only [Memory.wfFrom, Bool.and_eq_true, decide_eq_true_eq]
          exact ⟨⟨hk, hb⟩, hrest⟩
      · simp only [Memory.wfFrom, Bool.and_eq_true, decide_eq_true_eq]
        exact ⟨⟨hk, hv⟩, Memory.wfFrom_set (by omega) hrest⟩

/-- Setting a byte keeps the canonical form. -/
theorem Memory.wf_set {m : Memory} {a : Nat} {b : Byte} (h : m.wf = true) : (m.set a b).wf = true :=
  Memory.wfFrom_set (Nat.zero_le a) h

/-- Setting a byte below `n` lists no address at or beyond `n`. -/
theorem Memory.below_set {n a : Nat} {b : Byte} (ha : a < n) :
    ∀ {m : Memory}, m.below n = true → (m.set a b).below n = true
  | [], _ => by
    unfold Memory.set
    split <;> simp [Memory.below, ha]
  | (k, v) :: m, hm => by
    have hm' := hm
    simp only [Memory.below, List.all_cons, Bool.and_eq_true, decide_eq_true_eq] at hm'
    have ih := Memory.below_set (b := b) ha (m := m) hm'.2
    simp only [Memory.below] at ih
    unfold Memory.set
    split
    · split
      · exact hm
      · simp [Memory.below, ha, hm'.1]
        simpa using hm'.2
    · split
      · split
        · exact hm'.2
        · simp [Memory.below, ha]
          simpa using hm'.2
      · simp only [Memory.below, List.all_cons, Bool.and_eq_true, decide_eq_true_eq]
        exact ⟨hm'.1, ih⟩

theorem Memory.wf_place : ∀ {bs : List Byte} {m : Memory} {a : Nat}, m.wf = true → (m.place a bs).wf = true
  | [], _, _, h => h
  | b :: bs, m, a, h => Memory.wf_place (bs := bs) (m := m.set a b) (a := a + 1) (Memory.wf_set h)

theorem Memory.below_place {n : Nat} :
    ∀ {bs : List Byte} {m : Memory} {a : Nat}, a + bs.length ≤ n → m.below n = true → (m.place a bs).below n = true
  | [], _, _, _, h => h
  | b :: bs, m, a, hn, h => by
    simp only [List.length_cons] at hn
    exact Memory.below_place (bs := bs) (m := m.set a b) (a := a + 1) (by omega) (Memory.below_set (by omega) h)

/-! ## Read after write -/

/-- An address below every listed one reads as 0. -/
theorem Memory.get_of_lt : ∀ {m : Memory} {lo a : Nat}, Memory.wfFrom lo m = true → a < lo → m.get a = 0
  | [], _, _, _, _ => rfl
  | (k, v) :: m, lo, a, hm, ha => by
    simp only [Memory.wfFrom, Bool.and_eq_true, decide_eq_true_eq] at hm
    have hne : ¬ k = a := by omega
    simp only [Memory.get, hne, if_false]
    exact Memory.get_of_lt hm.2 (by omega)

theorem Memory.get_set_same_from {b : Byte} {a : Nat} :
    ∀ {m : Memory} {lo : Nat}, Memory.wfFrom lo m = true → (m.set a b).get a = b
  | [], _, _ => by
    unfold Memory.set
    split <;> simp_all [Memory.get]
  | (k, v) :: m, _, hm => by
    have hm' := hm
    simp only [Memory.wfFrom, Bool.and_eq_true, decide_eq_true_eq] at hm'
    unfold Memory.set
    split
    · next hak =>
      split
      · next hb =>
        have hne : ¬ k = a := by omega
        simp only [Memory.get, hne, if_false, hb]
        exact Memory.get_of_lt hm'.2 (by omega)
      · simp [Memory.get]
    · split
      · next hak =>
        subst hak
        split
        · next hb =>
          rw [hb]
          exact Memory.get_of_lt hm'.2 (by omega)
        · simp [Memory.get]
      · next hak =>
        have hne : ¬ k = a := fun h => hak h.symm
        simp only [Memory.get, hne, if_false]
        exact Memory.get_set_same_from hm'.2

/-- A byte that was set is read back. -/
theorem Memory.get_set_same {m : Memory} {a : Nat} {b : Byte} (h : m.wf = true) : (m.set a b).get a = b :=
  Memory.get_set_same_from h

/-- Setting a byte leaves every other address alone, in any memory. -/
theorem Memory.get_set_ne {a x : Nat} {b : Byte} (hx : x ≠ a) : ∀ (m : Memory), (m.set a b).get x = m.get x
  | [] => by
    unfold Memory.set
    split <;> simp [Memory.get, hx.symm]
  | (k, v) :: m => by
    have ih := Memory.get_set_ne (b := b) hx m
    unfold Memory.set
    split
    · split <;> simp [Memory.get, hx.symm]
    · split
      · next hak => subst hak; split <;> simp [Memory.get, hx.symm]
      · simp only [Memory.get, ih]

@[simp] theorem State.byteAt_setByte_ne (s : State) {a x : Nat} (b : Byte) (hx : x ≠ a) :
    (s.setByte a b).byteAt x = s.byteAt x := Memory.get_set_ne hx s.mem

theorem State.byteAt_setByte_same {s : State} (a : Nat) (b : Byte) (h : s.mem.wf = true) :
    (s.setByte a b).byteAt a = b := Memory.get_set_same h

end Sys2Proof.Machine
end

