-- ==== Sys2Proof/Laws/Ops.lean ====
section
/-! SUPPORT. What each shared operation does, said once: the memory primitives, the stack primitives, the bodies that
several meanings share, and `complete`. Proofs cite these and do not unfold the operations. -/

namespace Sys2Proof.Machine

/-! ## Memory primitives -/

@[simp] theorem State.inBounds_iff (s : State) (a : Word) (n : Nat) :
    s.inBounds a n = true ↔ a.toNat + n ≤ s.cfg.memSize := by simp [State.inBounds]

theorem State.inBounds_congr {s t : State} (h : t.cfg = s.cfg) (a : Word) (n : Nat) : t.inBounds a n = s.inBounds a n := by
  simp [State.inBounds, h]

@[simp] theorem State.regs_setWord (s : State) (a : Nat) (v : Word) : (s.setWord a v).regs = s.regs := rfl
@[simp] theorem State.pc_setWord (s : State) (a : Nat) (v : Word) : (s.setWord a v).pc = s.pc := rfl
@[simp] theorem State.flags_setWord (s : State) (a : Nat) (v : Word) : (s.setWord a v).flags = s.flags := rfl
@[simp] theorem State.status_setWord (s : State) (a : Nat) (v : Word) : (s.setWord a v).status = s.status := rfl
@[simp] theorem State.cfg_setWord (s : State) (a : Nat) (v : Word) : (s.setWord a v).cfg = s.cfg := rfl
@[simp] theorem State.reg_setWord (s : State) (a : Nat) (v : Word) (r : Reg) : (s.setWord a v).reg r = s.reg r := rfl

/-- A stored word leaves every byte outside its four alone. -/
theorem State.byteAt_setWord_ne (s : State) {a x : Nat} (v : Word) (hx : x < a ∨ a + 4 ≤ x) :
    (s.setWord a v).byteAt x = s.byteAt x := by
  unfold State.setWord
  rw [State.byteAt_setByte_ne _ _ (by omega), State.byteAt_setByte_ne _ _ (by omega),
    State.byteAt_setByte_ne _ _ (by omega), State.byteAt_setByte_ne _ _ (by omega)]

/-- Byte `k` of a stored word stands at address `a + k`. -/
theorem State.byteAt_setWord_same {s : State} (h : s.mem.wf = true) (a : Nat) (v : Word) {k : Nat} (hk : k < 4) :
    (s.setWord a v).byteAt (a + k) = byteOf v k := by
  have h1 : (s.setByte a (byteOf v 0)).mem.wf = true := Memory.wf_set h
  have h2 : ((s.setByte a (byteOf v 0)).setByte (a + 1) (byteOf v 1)).mem.wf = true := Memory.wf_set h1
  have h3 : (((s.setByte a (byteOf v 0)).setByte (a + 1) (byteOf v 1)).setByte (a + 2) (byteOf v 2)).mem.wf = true :=
    Memory.wf_set h2
  unfold State.setWord
  obtain rfl | rfl | rfl | rfl : k = 0 ∨ k = 1 ∨ k = 2 ∨ k = 3 := by omega
  · rw [State.byteAt_setByte_ne _ _ (by omega), State.byteAt_setByte_ne _ _ (by omega),
      State.byteAt_setByte_ne _ _ (by omega)]
    exact State.byteAt_setByte_same _ _ h
  · rw [State.byteAt_setByte_ne _ _ (by omega), State.byteAt_setByte_ne _ _ (by omega)]
    exact State.byteAt_setByte_same _ _ h1
  · rw [State.byteAt_setByte_ne _ _ (by omega)]
    exact State.byteAt_setByte_same _ _ h2
  · exact State.byteAt_setByte_same _ _ h3

/-- A stored word keeps the canonical form. -/
theorem State.wf_setWord {s : State} (h : s.mem.wf = true) (a : Nat) (v : Word) : (s.setWord a v).mem.wf = true :=
  Memory.wf_set (Memory.wf_set (Memory.wf_set (Memory.wf_set h)))

/-- A stored word below `n` keeps the bound. -/
theorem State.below_setWord {s : State} {n a : Nat} (ha : a + 4 ≤ n) (h : s.mem.below n = true) (v : Word) :
    (s.setWord a v).mem.below n = true :=
  Memory.below_set (by omega) (Memory.below_set (by omega) (Memory.below_set (by omega) (Memory.below_set (by omega) h)))

theorem State.wf_storeBytes :
    ∀ {bs : List Byte} {s : State} {a : Word}, s.mem.wf = true → (s.storeBytes a bs).mem.wf = true
  | [], _, _, h => h
  | b :: bs, s, a, h => by
    unfold State.storeBytes
    apply State.wf_storeBytes
    split
    · exact Memory.wf_set h
    · exact h

/-- `MemRead(a, 4)` inside Memory. -/
theorem State.memRead32_ok {s : State} {a : Word} (h : a.toNat + 4 ≤ s.cfg.memSize) :
    s.memRead32 a = .ok (wordOf (s.byteAt a.toNat) (s.byteAt (a.toNat + 1)) (s.byteAt (a.toNat + 2)) (s.byteAt (a.toNat + 3))) :=
  if_pos ((State.inBounds_iff ..).2 h)

/-- `MemRead(a, 4)` that leaves Memory. -/
theorem State.memRead32_error {s : State} {a : Word} (h : ¬ a.toNat + 4 ≤ s.cfg.memSize) :
    s.memRead32 a = .error (.outOfBounds a 4) :=
  if_neg (mt (State.inBounds_iff ..).1 h)

/-- `MemWrite(a, 4, v)` inside Memory. -/
theorem State.memWrite32_ok {s : State} {a : Word} (h : a.toNat + 4 ≤ s.cfg.memSize) (v : Word) :
    s.memWrite32 a v = .ok (s.setWord a.toNat v) :=
  if_pos ((State.inBounds_iff ..).2 h)

/-- `MemWrite(a, 4, v)` that leaves Memory stores nothing. -/
theorem State.memWrite32_error {s : State} {a : Word} (h : ¬ a.toNat + 4 ≤ s.cfg.memSize) (v : Word) :
    s.memWrite32 a v = .error (.outOfBounds a 4) :=
  if_neg (mt (State.inBounds_iff ..).1 h)

/-- Everything `MemRead(a, 4)` can answer. -/
theorem State.memRead32_cases (s : State) (a : Word) :
    (a.toNat + 4 ≤ s.cfg.memSize ∧
      s.memRead32 a = .ok (wordOf (s.byteAt a.toNat) (s.byteAt (a.toNat + 1)) (s.byteAt (a.toNat + 2)) (s.byteAt (a.toNat + 3)))) ∨
    (¬ a.toNat + 4 ≤ s.cfg.memSize ∧ s.memRead32 a = .error (.outOfBounds a 4)) := by
  by_cases h : a.toNat + 4 ≤ s.cfg.memSize
  · exact .inl ⟨h, State.memRead32_ok h⟩
  · exact .inr ⟨h, State.memRead32_error h⟩

/-- Everything `MemWrite(a, 4, v)` can answer. -/
theorem State.memWrite32_cases (s : State) (a v : Word) :
    (a.toNat + 4 ≤ s.cfg.memSize ∧ s.memWrite32 a v = .ok (s.setWord a.toNat v)) ∨
    (¬ a.toNat + 4 ≤ s.cfg.memSize ∧ s.memWrite32 a v = .error (.outOfBounds a 4)) := by
  by_cases h : a.toNat + 4 ≤ s.cfg.memSize
  · exact .inl ⟨h, State.memWrite32_ok h v⟩
  · exact .inr ⟨h, State.memWrite32_error h v⟩

/-! ## Stack primitives -/

/-- Everything `Push(v)` can answer. -/
theorem State.push_cases (s : State) (v : Word) :
    ((s.reg .esp - 4).toNat + 4 ≤ s.cfg.memSize ∧
      s.push v = .ok ((s.setWord (s.reg .esp - 4).toNat v).setReg .esp (s.reg .esp - 4))) ∨
    (¬ (s.reg .esp - 4).toNat + 4 ≤ s.cfg.memSize ∧ s.push v = .error (.outOfBounds (s.reg .esp - 4) 4)) := by
  obtain ⟨h, e⟩ | ⟨h, e⟩ := State.memWrite32_cases s (s.reg .esp - 4) v
  · exact .inl ⟨h, by simp only [State.push, bind, Except.bind, e]⟩
  · exact .inr ⟨h, by simp only [State.push, bind, Except.bind, e]⟩

/-- Everything `Pop()` can answer. -/
theorem State.pop_cases (s : State) :
    ((s.reg .esp).toNat + 4 ≤ s.cfg.memSize ∧
      s.pop = .ok (wordOf (s.byteAt (s.reg .esp).toNat) (s.byteAt ((s.reg .esp).toNat + 1))
        (s.byteAt ((s.reg .esp).toNat + 2)) (s.byteAt ((s.reg .esp).toNat + 3)), s.setReg .esp (s.reg .esp + 4))) ∨
    (¬ (s.reg .esp).toNat + 4 ≤ s.cfg.memSize ∧ s.pop = .error (.outOfBounds (s.reg .esp) 4)) := by
  obtain ⟨h, e⟩ | ⟨h, e⟩ := State.memRead32_cases s (s.reg .esp)
  · exact .inl ⟨h, by simp only [State.pop, bind, Except.bind, e]⟩
  · exact .inr ⟨h, by simp only [State.pop, bind, Except.bind, e]⟩

/-! ## Effective addresses -/

/-- The exact sum taken modulo 2^32 is the wraparound sum. -/
theorem addrSum_eq (base d : Word) : addrSum base d = base + d := by
  apply BitVec.eq_of_toInt_eq
  simp [addrSum, addrExact, BitVec.toInt_ofInt, BitVec.toInt_add]

/-- Everything `EA(m)` can answer. -/
theorem State.ea_cases (s : State) (m : MemOp) :
    (¬ (s.cfg.eaOverflow = .fault ∧ addrOverflows (s.reg m.base) (dispWord m.disp) = true) ∧ s.ea m = .ok (s.addrOf m)) ∨
    ((s.cfg.eaOverflow = .fault ∧ addrOverflows (s.reg m.base) (dispWord m.disp) = true) ∧
      s.ea m = .error (.outOfBounds (s.addrOf m) 4)) := by
  unfold State.ea addrAdd State.addrOf
  split
  · next h => exact .inr ⟨h, rfl⟩
  · next h => exact .inl ⟨h, rfl⟩

@[simp] theorem State.addrOf_advance (s : State) (n : Nat) (m : MemOp) : (s.advance n).addrOf m = s.addrOf m := rfl
@[simp] theorem State.ea_advance (s : State) (n : Nat) (m : MemOp) : (s.advance n).ea m = s.ea m := rfl
@[simp] theorem State.memRead32_advance (s : State) (n : Nat) (a : Word) : (s.advance n).memRead32 a = s.memRead32 a := rfl

/-! ## Shared bodies -/

@[simp] theorem toReg_eq (r : Reg) (v : State → Word) (w : State) : toReg r v w = .ok (w.setReg r (v w)) := rfl

theorem loadTo_eq (r : Reg) (m : MemOp) (f : Word → State → Word) (w : State) :
    loadTo r m f w = (w.ea m >>= fun a => w.memRead32 a >>= fun v => .ok (w.setReg r (f v w))) := rfl

theorem storeTo_eq (m : MemOp) (v : State → Word) (w : State) :
    storeTo m v w = (w.ea m >>= fun a => w.memWrite32 a (v w)) := rfl

theorem updateMem_eq (m : MemOp) (f : Word → State → Word) (w : State) :
    updateMem m f w = (w.ea m >>= fun a => w.memRead32 a >>= fun t => w.memWrite32 a (f t w)) := rfl

@[simp] theorem attempt_bind_ok {α β : Type} (a : α) (f : α → Attempt β) : ((.ok a : Attempt α) >>= f) = f a := rfl

@[simp] theorem attempt_bind_error {α β : Type} (c : FaultCause) (f : α → Attempt β) :
    ((.error c : Attempt α) >>= f) = .error c := rfl

/-! ## Completing an instruction -/

/-- A body that raises nothing: its state is the next state. -/
theorem complete_ok {i : Instr} {s t : State} {body : State → Attempt State} (h : body (s.advance i.length) = .ok t) :
    complete i s body = .next t := by simp only [complete, h]

/-- A body that raises a fault: fault entry at the state before the instruction. -/
theorem complete_error {i : Instr} {s : State} {body : State → Attempt State} {c : FaultCause}
    (h : body (s.advance i.length) = .error c) : complete i s body = .next (s.raise c (encode i)) := by
  simp only [complete, h]

/-- Everything `complete` can answer. -/
theorem complete_cases {i : Instr} {s u : State} {body : State → Attempt State} (h : complete i s body = .next u) :
    body (s.advance i.length) = .ok u ∨ ∃ c, body (s.advance i.length) = .error c ∧ u = s.raise c (encode i) := by
  unfold complete at h
  split at h
  · next t e => exact .inl (by simpa [e] using h)
  · next c e => exact .inr ⟨c, e, by simpa using h.symm⟩

end Sys2Proof.Machine
end

