-- ==== Sys2Proof/Laws/Exec.lean ====
section
/-! SUPPORT. Every meaning is `complete` of its instruction with a body that does not look at the state outside it: what
holds of `complete` holds of `exec`. -/

namespace Sys2Proof.Machine

theorem exec_eq_complete : ∀ i : Instr, ∃ body : State → Attempt State, ∀ s, exec i s = complete i s body
  | .addRR rm reg => ⟨_, fun s => execAddRR.eq_1 rm reg s⟩
  | .addMR m reg => ⟨_, fun s => execAddMR.eq_1 m reg s⟩
  | .addRM reg m => ⟨_, fun s => execAddRM.eq_1 reg m s⟩
  | .addEaxImm32 imm => ⟨_, fun s => execAddEaxImm32.eq_1 imm s⟩
  | .subRR rm reg => ⟨_, fun s => execSubRR.eq_1 rm reg s⟩
  | .subMR m reg => ⟨_, fun s => execSubMR.eq_1 m reg s⟩
  | .subRM reg m => ⟨_, fun s => execSubRM.eq_1 reg m s⟩
  | .subEaxImm32 imm => ⟨_, fun s => execSubEaxImm32.eq_1 imm s⟩
  | .xorRR rm reg => ⟨_, fun s => execXorRR.eq_1 rm reg s⟩
  | .cmpRM reg m => ⟨_, fun s => execCmpRM.eq_1 reg m s⟩
  | .pushR r => ⟨_, fun s => execPushR.eq_1 r s⟩
  | .popR r => ⟨_, fun s => execPopR.eq_1 r s⟩
  | .pushImm8 imm => ⟨_, fun s => execPushImm8.eq_1 imm s⟩
  | .jzRel8 rel => ⟨_, fun s => execJzRel8.eq_1 rel s⟩
  | .jnzRel8 rel => ⟨_, fun s => execJnzRel8.eq_1 rel s⟩
  | .jngRel8 rel => ⟨_, fun s => execJngRel8.eq_1 rel s⟩
  | .jgRel8 rel => ⟨_, fun s => execJgRel8.eq_1 rel s⟩
  | .addRImm32 rm imm => ⟨_, fun s => execAddRImm32.eq_1 rm imm s⟩
  | .subRImm32 rm imm => ⟨_, fun s => execSubRImm32.eq_1 rm imm s⟩
  | .addRImm8 rm imm => ⟨_, fun s => execAddRImm8.eq_1 rm imm s⟩
  | .addMImm8 m imm => ⟨_, fun s => execAddMImm8.eq_1 m imm s⟩
  | .andRImm8 rm imm => ⟨_, fun s => execAndRImm8.eq_1 rm imm s⟩
  | .subRImm8 rm imm => ⟨_, fun s => execSubRImm8.eq_1 rm imm s⟩
  | .subMImm8 m imm => ⟨_, fun s => execSubMImm8.eq_1 m imm s⟩
  | .cmpRImm8 rm imm => ⟨_, fun s => execCmpRImm8.eq_1 rm imm s⟩
  | .cmpMImm8 m imm => ⟨_, fun s => execCmpMImm8.eq_1 m imm s⟩
  | .movRR rm reg => ⟨_, fun s => execMovRR.eq_1 rm reg s⟩
  | .movMR m reg => ⟨_, fun s => execMovMR.eq_1 m reg s⟩
  | .movRM reg m => ⟨_, fun s => execMovRM.eq_1 reg m s⟩
  | .lea reg m => ⟨_, fun s => execLea.eq_1 reg m s⟩
  | .nop => ⟨_, fun s => execNop.eq_1 s⟩
  | .movRImm32 r imm => ⟨_, fun s => execMovRImm32.eq_1 r imm s⟩
  | .ret => ⟨_, fun s => execRet.eq_1 s⟩
  | .movMImm32 m imm => ⟨_, fun s => execMovMImm32.eq_1 m imm s⟩
  | .shrR rm => ⟨_, fun s => execShrR.eq_1 rm s⟩
  | .callRel32 rel => ⟨_, fun s => execCallRel32.eq_1 rel s⟩
  | .jmpRel8 rel => ⟨_, fun s => execJmpRel8.eq_1 rel s⟩
  | .pushM m => ⟨_, fun s => execPushM.eq_1 m s⟩
  | .jzRel32 rel => ⟨_, fun s => execJzRel32.eq_1 rel s⟩
  | .jnzRel32 rel => ⟨_, fun s => execJnzRel32.eq_1 rel s⟩

/-- Everything `exec` can answer: the state of a body that raised nothing, or fault entry with all the instruction's
bytes. -/
theorem exec_cases (i : Instr) (s : State) :
    ∃ body : State → Attempt State, (∀ s, exec i s = complete i s body) ∧
      ((∃ t, body (s.advance i.length) = .ok t ∧ exec i s = .next t) ∨
       (∃ c, body (s.advance i.length) = .error c ∧ exec i s = .next (s.raise c (encode i)))) := by
  obtain ⟨body, hb⟩ := exec_eq_complete i
  refine ⟨body, hb, ?_⟩
  cases h : body (s.advance i.length) with
  | ok t => exact .inl ⟨t, rfl, (hb s).trans (complete_ok h)⟩
  | error c => exact .inr ⟨c, rfl, (hb s).trans (complete_error h)⟩

end Sys2Proof.Machine
end

