-- ==== Sys2Proof/Laws/PerInstr.lean ====
section
/-! SUPPORT. Statements made per instruction. Family EncodingLength: the encoder writes as many bytes as the length formula
of 30_encoding.md R81 says, between 1 and 11. -/

namespace Sys2Proof

@[simp] theorem MemOp.length_bytes (m : MemOp) (n : BitVec 3) : (m.bytes n).length = m.length := by
  obtain ⟨sib, base, d⟩ := m
  cases sib <;> cases d <;> rfl

/-- A memory operand takes 2 to 6 addressing bytes. -/
theorem MemOp.length_bounds (m : MemOp) : 2 ≤ m.length ∧ m.length ≤ 6 := by
  obtain ⟨sib, base, d⟩ := m
  cases sib <;> cases d <;> simp [MemOp.length]

end Sys2Proof

namespace Sys2Proof.Laws.EncodingLength

/-- The length of the encoding is the formula's, and no instruction is longer than 11 bytes. -/
def Statement (i : Instr) : Prop := (encode i).length = i.length ∧ 1 ≤ i.length ∧ i.length ≤ maxInstrLength

/-- The forms that end with the addressing bytes. -/
theorem of_mem {i : Instr} {op : Byte} {m : MemOp} {n : BitVec 3} (he : encode i = op :: m.bytes n)
    (hl : i.length = 1 + m.length) : Statement i := by
  have := m.length_bounds
  refine ⟨?_, ?_, ?_⟩
  · rw [he, hl, List.length_cons, MemOp.length_bytes, Nat.add_comm]
  · omega
  · unfold maxInstrLength; omega

/-- The forms with an immediate behind the addressing bytes. -/
theorem of_mem_tail {i : Instr} {op : Byte} {m : MemOp} {n : BitVec 3} {t : List Byte} (ht : t.length ≤ 4)
    (he : encode i = op :: m.bytes n ++ t) (hl : i.length = 1 + m.length + t.length) : Statement i := by
  have := m.length_bounds
  refine ⟨?_, ?_, ?_⟩
  · rw [he, hl, List.length_append, List.length_cons, MemOp.length_bytes, Nat.add_comm m.length]
  · omega
  · unfold maxInstrLength; omega

theorem addRR (rm reg : Reg) : Statement (.addRR rm reg) := ⟨rfl, Nat.le_of_ble_eq_true rfl, Nat.le_of_ble_eq_true rfl⟩

theorem addMR (m : MemOp) (reg : Reg) : Statement (.addMR m reg) := of_mem rfl rfl

theorem addRM (reg : Reg) (m : MemOp) : Statement (.addRM reg m) := of_mem rfl rfl

theorem addEaxImm32 (imm : Word) : Statement (.addEaxImm32 imm) := ⟨rfl, Nat.le_of_ble_eq_true rfl, Nat.le_of_ble_eq_true rfl⟩

theorem subRR (rm reg : Reg) : Statement (.subRR rm reg) := ⟨rfl, Nat.le_of_ble_eq_true rfl, Nat.le_of_ble_eq_true rfl⟩

theorem subMR (m : MemOp) (reg : Reg) : Statement (.subMR m reg) := of_mem rfl rfl

theorem subRM (reg : Reg) (m : MemOp) : Statement (.subRM reg m) := of_mem rfl rfl

theorem subEaxImm32 (imm : Word) : Statement (.subEaxImm32 imm) := ⟨rfl, Nat.le_of_ble_eq_true rfl, Nat.le_of_ble_eq_true rfl⟩

theorem xorRR (rm reg : Reg) : Statement (.xorRR rm reg) := ⟨rfl, Nat.le_of_ble_eq_true rfl, Nat.le_of_ble_eq_true rfl⟩

theorem cmpRM (reg : Reg) (m : MemOp) : Statement (.cmpRM reg m) := of_mem rfl rfl

theorem pushR (r : Reg) : Statement (.pushR r) := ⟨rfl, Nat.le_of_ble_eq_true rfl, Nat.le_of_ble_eq_true rfl⟩

theorem popR (r : Reg) : Statement (.popR r) := ⟨rfl, Nat.le_of_ble_eq_true rfl, Nat.le_of_ble_eq_true rfl⟩

theorem pushImm8 (imm : Byte) : Statement (.pushImm8 imm) := ⟨rfl, Nat.le_of_ble_eq_true rfl, Nat.le_of_ble_eq_true rfl⟩

theorem jzRel8 (rel : Byte) : Statement (.jzRel8 rel) := ⟨rfl, Nat.le_of_ble_eq_true rfl, Nat.le_of_ble_eq_true rfl⟩

theorem jnzRel8 (rel : Byte) : Statement (.jnzRel8 rel) := ⟨rfl, Nat.le_of_ble_eq_true rfl, Nat.le_of_ble_eq_true rfl⟩

theorem jngRel8 (rel : Byte) : Statement (.jngRel8 rel) := ⟨rfl, Nat.le_of_ble_eq_true rfl, Nat.le_of_ble_eq_true rfl⟩

theorem jgRel8 (rel : Byte) : Statement (.jgRel8 rel) := ⟨rfl, Nat.le_of_ble_eq_true rfl, Nat.le_of_ble_eq_true rfl⟩

theorem addRImm32 (rm : Reg) (imm : Word) : Statement (.addRImm32 rm imm) := ⟨rfl, Nat.le_of_ble_eq_true rfl, Nat.le_of_ble_eq_true rfl⟩

theorem subRImm32 (rm : Reg) (imm : Word) : Statement (.subRImm32 rm imm) := ⟨rfl, Nat.le_of_ble_eq_true rfl, Nat.le_of_ble_eq_true rfl⟩

theorem addRImm8 (rm : Reg) (imm : Byte) : Statement (.addRImm8 rm imm) := ⟨rfl, Nat.le_of_ble_eq_true rfl, Nat.le_of_ble_eq_true rfl⟩

theorem addMImm8 (m : MemOp) (imm : Byte) : Statement (.addMImm8 m imm) :=
  of_mem_tail (t := [imm]) (Nat.le_of_ble_eq_true rfl) rfl rfl

theorem andRImm8 (rm : Reg) (imm : Byte) : Statement (.andRImm8 rm imm) := ⟨rfl, Nat.le_of_ble_eq_true rfl, Nat.le_of_ble_eq_true rfl⟩

theorem subRImm8 (rm : Reg) (imm : Byte) : Statement (.subRImm8 rm imm) := ⟨rfl, Nat.le_of_ble_eq_true rfl, Nat.le_of_ble_eq_true rfl⟩

theorem subMImm8 (m : MemOp) (imm : Byte) : Statement (.subMImm8 m imm) :=
  of_mem_tail (t := [imm]) (Nat.le_of_ble_eq_true rfl) rfl rfl

theorem cmpRImm8 (rm : Reg) (imm : Byte) : Statement (.cmpRImm8 rm imm) := ⟨rfl, Nat.le_of_ble_eq_true rfl, Nat.le_of_ble_eq_true rfl⟩

theorem cmpMImm8 (m : MemOp) (imm : Byte) : Statement (.cmpMImm8 m imm) :=
  of_mem_tail (t := [imm]) (Nat.le_of_ble_eq_true rfl) rfl rfl

theorem movRR (rm reg : Reg) : Statement (.movRR rm reg) := ⟨rfl, Nat.le_of_ble_eq_true rfl, Nat.le_of_ble_eq_true rfl⟩

theorem movMR (m : MemOp) (reg : Reg) : Statement (.movMR m reg) := of_mem rfl rfl

theorem movRM (reg : Reg) (m : MemOp) : Statement (.movRM reg m) := of_mem rfl rfl

theorem lea (reg : Reg) (m : MemOp) : Statement (.lea reg m) := of_mem rfl rfl

theorem nop : Statement .nop := ⟨rfl, Nat.le_of_ble_eq_true rfl, Nat.le_of_ble_eq_true rfl⟩

theorem movRImm32 (r : Reg) (imm : Word) : Statement (.movRImm32 r imm) := ⟨rfl, Nat.le_of_ble_eq_true rfl, Nat.le_of_ble_eq_true rfl⟩

theorem ret : Statement .ret := ⟨rfl, Nat.le_of_ble_eq_true rfl, Nat.le_of_ble_eq_true rfl⟩

theorem movMImm32 (m : MemOp) (imm : Word) : Statement (.movMImm32 m imm) :=
  of_mem_tail (t := bytesOf imm) (Nat.le_of_ble_eq_true rfl) rfl rfl

theorem shrR (rm : Reg) : Statement (.shrR rm) := ⟨rfl, Nat.le_of_ble_eq_true rfl, Nat.le_of_ble_eq_true rfl⟩

theorem callRel32 (rel : Word) : Statement (.callRel32 rel) := ⟨rfl, Nat.le_of_ble_eq_true rfl, Nat.le_of_ble_eq_true rfl⟩

theorem jmpRel8 (rel : Byte) : Statement (.jmpRel8 rel) := ⟨rfl, Nat.le_of_ble_eq_true rfl, Nat.le_of_ble_eq_true rfl⟩

theorem pushM (m : MemOp) : Statement (.pushM m) := of_mem rfl rfl

theorem jzRel32 (rel : Word) : Statement (.jzRel32 rel) := ⟨rfl, Nat.le_of_ble_eq_true rfl, Nat.le_of_ble_eq_true rfl⟩

theorem jnzRel32 (rel : Word) : Statement (.jnzRel32 rel) := ⟨rfl, Nat.le_of_ble_eq_true rfl, Nat.le_of_ble_eq_true rfl⟩

end Sys2Proof.Laws.EncodingLength

namespace Sys2Proof

/-- The family EncodingLength for every instruction. -/
theorem Instr.encodingLength : ∀ i : Instr, Laws.EncodingLength.Statement i
  | .addRR rm reg => Laws.EncodingLength.addRR rm reg
  | .addMR m reg => Laws.EncodingLength.addMR m reg
  | .addRM reg m => Laws.EncodingLength.addRM reg m
  | .addEaxImm32 imm => Laws.EncodingLength.addEaxImm32 imm
  | .subRR rm reg => Laws.EncodingLength.subRR rm reg
  | .subMR m reg => Laws.EncodingLength.subMR m reg
  | .subRM reg m => Laws.EncodingLength.subRM reg m
  | .subEaxImm32 imm => Laws.EncodingLength.subEaxImm32 imm
  | .xorRR rm reg => Laws.EncodingLength.xorRR rm reg
  | .cmpRM reg m => Laws.EncodingLength.cmpRM reg m
  | .pushR r => Laws.EncodingLength.pushR r
  | .popR r => Laws.EncodingLength.popR r
  | .pushImm8 imm => Laws.EncodingLength.pushImm8 imm
  | .jzRel8 rel => Laws.EncodingLength.jzRel8 rel
  | .jnzRel8 rel => Laws.EncodingLength.jnzRel8 rel
  | .jngRel8 rel => Laws.EncodingLength.jngRel8 rel
  | .jgRel8 rel => Laws.EncodingLength.jgRel8 rel
  | .addRImm32 rm imm => Laws.EncodingLength.addRImm32 rm imm
  | .subRImm32 rm imm => Laws.EncodingLength.subRImm32 rm imm
  | .addRImm8 rm imm => Laws.EncodingLength.addRImm8 rm imm
  | .addMImm8 m imm => Laws.EncodingLength.addMImm8 m imm
  | .andRImm8 rm imm => Laws.EncodingLength.andRImm8 rm imm
  | .subRImm8 rm imm => Laws.EncodingLength.subRImm8 rm imm
  | .subMImm8 m imm => Laws.EncodingLength.subMImm8 m imm
  | .cmpRImm8 rm imm => Laws.EncodingLength.cmpRImm8 rm imm
  | .cmpMImm8 m imm => Laws.EncodingLength.cmpMImm8 m imm
  | .movRR rm reg => Laws.EncodingLength.movRR rm reg
  | .movMR m reg => Laws.EncodingLength.movMR m reg
  | .movRM reg m => Laws.EncodingLength.movRM reg m
  | .lea reg m => Laws.EncodingLength.lea reg m
  | .nop => Laws.EncodingLength.nop
  | .movRImm32 r imm => Laws.EncodingLength.movRImm32 r imm
  | .ret => Laws.EncodingLength.ret
  | .movMImm32 m imm => Laws.EncodingLength.movMImm32 m imm
  | .shrR rm => Laws.EncodingLength.shrR rm
  | .callRel32 rel => Laws.EncodingLength.callRel32 rel
  | .jmpRel8 rel => Laws.EncodingLength.jmpRel8 rel
  | .pushM m => Laws.EncodingLength.pushM m
  | .jzRel32 rel => Laws.EncodingLength.jzRel32 rel
  | .jnzRel32 rel => Laws.EncodingLength.jnzRel32 rel

theorem Instr.length_encode (i : Instr) : (encode i).length = i.length := i.encodingLength.1

theorem Instr.length_pos (i : Instr) : 1 ≤ i.length := i.encodingLength.2.1

theorem Instr.length_le (i : Instr) : i.length ≤ maxInstrLength := i.encodingLength.2.2

end Sys2Proof
end

