-- ==== Sys2Proof/Tests/Slice0.lean ====
section
/-! SUPPORT. Tests whose expected results come from the spec: the ill-formed terms that WellFormed refuses, words written
out from 30_encoding.md R97, one step per instruction from the vectors of 95_test_vectors.md, and a witness for the
hypotheses of each statement. -/

namespace Sys2Proof.Tests

open Sys2Proof Sys2Proof.Machine Sys2Proof.Claims

/-! ## Helpers -/

/-- `s` with the pc at `pc` and the bytes `bs` stored there. -/
def codeAt (s : State) (pc : Word) (bs : List Byte) : State := (s.setPc pc).storeBytes pc bs

/-- The reset state with the bytes `bs` at address 0. -/
def code (bs : List Byte) : State := codeAt .reset 0 bs

/-- What `f` sees after one step, if there is a next state. -/
def run1 {α : Type} (s : State) (f : State → α) : Option α :=
  match step s with
  | .next t => some (f t)
  | .fault _ => none
  | .refused _ => none

/-- The u32 at an address, as a word. -/
def dword (s : State) (a : Nat) : Word := wordOf (s.byteAt a) (s.byteAt (a + 1)) (s.byteAt (a + 2)) (s.byteAt (a + 3))

/-- A state whose flags word has the given bits. -/
def flagged (s : State) (cf zf sf of : Bool) : State := s.setFlags { cf := cf, zf := zf, sf := sf, of := of }

/-- The reset state under `P_EA_OVERFLOW = fault`. -/
def strict : State := State.start { Config.default with eaOverflow := .fault }

/-- The reset state under `P_PUSH_IMM8_EXT = sign`. -/
def signed : State := State.start { Config.default with pushImm8Ext := .sign }

/-- `[ebp-4]`. -/
def local4 : MemOp := { sib := false, base := .ebp, disp := .d8 0xFC }

/-! ## WellFormed refuses ESP as a base without a SIB byte (30_encoding.md R86) -/

theorem test_wf_refuses_esp_without_sib :
    MemOp.wf { sib := false, base := .esp, disp := .d8 4 } = false := by decide

theorem test_wf_refuses_instruction_with_bad_operand :
    (Instr.movMImm32 { sib := false, base := .esp, disp := .d32 4 } 1).wf = false := by decide

theorem test_wf_accepts_esp_with_sib :
    (Instr.pushM { sib := true, base := .esp, disp := .d8 4 }).wf = true := by decide

/-! ## Decoding: a word written out for every constructor (30_encoding.md R97, 95_test_vectors.md 2.2 to 2.6) -/

theorem test_decode_add :
    decode [0x01, 0xC8] = .instr (.addRR .eax .ecx) [] ∧
    decode [0x01, 0x45, 0xFC] = .instr (.addMR local4 .eax) [] ∧
    decode [0x03, 0x44, 0x24, 0x04] = .instr (.addRM .eax { sib := true, base := .esp, disp := .d8 4 }) [] ∧
    decode [0x05, 0x01, 0x00, 0x00, 0x00] = .instr (.addEaxImm32 1) [] ∧
    decode [0x81, 0xC4, 0x00, 0x01, 0x00, 0x00] = .instr (.addRImm32 .esp 0x100) [] ∧
    decode [0x83, 0xC0, 0xFF] = .instr (.addRImm8 .eax 0xFF) [] ∧
    decode [0x83, 0x44, 0x24, 0x04, 0x80] = .instr (.addMImm8 { sib := true, base := .esp, disp := .d8 4 } 0x80) [] := by
  decide

theorem test_decode_sub :
    decode [0x29, 0xD0] = .instr (.subRR .eax .edx) [] ∧
    decode [0x29, 0x85, 0x00, 0x01, 0x00, 0x00] = .instr (.subMR { sib := false, base := .ebp, disp := .d32 0x100 } .eax) [] ∧
    decode [0x2B, 0x45, 0xFC] = .instr (.subRM .eax local4) [] ∧
    decode [0x2D, 0x01, 0x00, 0x00, 0x80] = .instr (.subEaxImm32 0x80000001) [] ∧
    decode [0x81, 0xEC, 0x00, 0x01, 0x00, 0x00] = .instr (.subRImm32 .esp 0x100) [] ∧
    decode [0x83, 0xEC, 0x08] = .instr (.subRImm8 .esp 8) [] ∧
    decode [0x83, 0x6C, 0x24, 0x04, 0x01] = .instr (.subMImm8 { sib := true, base := .esp, disp := .d8 4 } 1) [] := by
  decide

theorem test_decode_logic_and_compare :
    decode [0x31, 0xD8] = .instr (.xorRR .eax .ebx) [] ∧
    decode [0x83, 0xE4, 0xF0] = .instr (.andRImm8 .esp 0xF0) [] ∧
    decode [0xD1, 0xEB] = .instr (.shrR .ebx) [] ∧
    decode [0x3B, 0x5C, 0x24, 0x00] = .instr (.cmpRM .ebx { sib := true, base := .esp, disp := .d8 0 }) [] ∧
    decode [0x83, 0xF9, 0x00] = .instr (.cmpRImm8 .ecx 0) [] ∧
    decode [0x83, 0x7D, 0xFC, 0x00] = .instr (.cmpMImm8 local4 0) [] := by decide

theorem test_decode_mov_lea :
    decode [0x89, 0xE5] = .instr (.movRR .ebp .esp) [] ∧
    decode [0x89, 0x44, 0x24, 0x04] = .instr (.movMR { sib := true, base := .esp, disp := .d8 4 } .eax) [] ∧
    decode [0x8B, 0x84, 0x24, 0xF0, 0xFF, 0xFF, 0xFF] =
      .instr (.movRM .eax { sib := true, base := .esp, disp := .d32 0xFFFFFFF0 }) [] ∧
    decode [0x8B, 0x44, 0x25, 0x08] = .instr (.movRM .eax { sib := true, base := .ebp, disp := .d8 8 }) [] ∧
    decode [0x8D, 0x4C, 0x24, 0x04] = .instr (.lea .ecx { sib := true, base := .esp, disp := .d8 4 }) [] ∧
    decode [0xBF, 0xFF, 0xFF, 0xFF, 0x7F] = .instr (.movRImm32 .edi 0x7FFFFFFF) [] ∧
    decode [0xC7, 0x44, 0x24, 0x08, 0xEF, 0xBE, 0xAD, 0xDE] =
      .instr (.movMImm32 { sib := true, base := .esp, disp := .d8 8 } 0xDEADBEEF) [] := by decide

theorem test_decode_stack :
    decode [0x57] = .instr (.pushR .edi) [] ∧
    decode [0x6A, 0x7B] = .instr (.pushImm8 0x7B) [] ∧
    decode [0xFF, 0x75, 0x08] = .instr (.pushM { sib := false, base := .ebp, disp := .d8 8 }) [] ∧
    decode [0x5D] = .instr (.popR .ebp) [] := by decide

theorem test_decode_control :
    decode [0xE8, 0xF6, 0xFF, 0xFF, 0xFF] = .instr (.callRel32 0xFFFFFFF6) [] ∧
    decode [0xC3] = .instr .ret [] ∧
    decode [0xEB, 0x80] = .instr (.jmpRel8 0x80) [] ∧
    decode [0x74, 0x02] = .instr (.jzRel8 2) [] ∧
    decode [0x75, 0xF6] = .instr (.jnzRel8 0xF6) [] ∧
    decode [0x7E, 0x03] = .instr (.jngRel8 3) [] ∧
    decode [0x7F, 0x05] = .instr (.jgRel8 5) [] ∧
    decode [0x0F, 0x84, 0x01, 0x00, 0x00, 0x00] = .instr (.jzRel32 1) [] ∧
    decode [0x0F, 0x85, 0xFA, 0xFF, 0xFF, 0xFF] = .instr (.jnzRel32 0xFFFFFFFA) [] ∧
    decode [0x90] = .instr .nop [] := by decide

/-- The host's two questions about a table word: the first byte is the low one. -/
theorem test_table_word :
    decodeTableWord 40 0x12345678B8 = some (.movRImm32 .eax 0x12345678) ∧
    run1 (State.reset.withFetchWord 40 0x12345678B8) (fun t => (t.reg .eax, t.pc)) = some (0x12345678, 5) := by decide

/-! ## One step per instruction (95_test_vectors.md 2.4) -/

theorem test_mov_r_imm32 :
    run1 (codeAt .reset 0x10 [0xBF, 0xFF, 0xFF, 0xFF, 0xFF]) (fun t => (t.reg .edi, t.pc)) = some (0xFFFFFFFF, 0x15) := by
  decide

theorem test_mov_r_r :
    run1 ((code [0x89, 0xC3]).setReg .eax 0x12345678) (fun t => (t.reg .ebx, t.reg .eax)) = some (0x12345678, 0x12345678) := by
  decide

theorem test_mov_m_r :
    run1 (((code [0x89, 0x45, 0xFC]).setReg .ebp 0xFFFF4).setReg .eax 0xAABBCCDD)
      (fun t => (t.byteAt 0xFFFF0, t.byteAt 0xFFFF3, t.pc)) = some (0xDD, 0xAA, 3) := by decide

theorem test_mov_r_m_same_base :
    run1 (((code [0x8B, 0x40, 0x01]).setReg .eax 0x100).setWord 0x101 0x42) (fun t => t.reg .eax) = some 0x42 := by decide

theorem test_mov_m_imm32 :
    run1 ((code [0xC7, 0x44, 0x24, 0x08, 0xEF, 0xBE, 0xAD, 0xDE]).setReg .esp 0xFFFE0) (fun t => (dword t 0xFFFE8, t.pc)) =
      some (0xDEADBEEF, 8) := by decide

theorem test_lea_beyond_memory :
    run1 (code [0x8D, 0x4C, 0x24, 0x04]) (fun t => (t.reg .ecx, t.status)) = some (0x00100000, .running) := by decide

theorem test_push_esp_stores_the_old_esp :
    run1 (code [0x54]) (fun t => (t.reg .esp, dword t 0xFFFF8)) = some (0xFFFF8, 0xFFFFC) := by decide

theorem test_push_imm8_zero_extends :
    run1 (code [0x6A, 0xFF]) (fun t => (t.reg .esp, dword t 0xFFFF8)) = some (0xFFFF8, 0xFF) := by decide

theorem test_push_imm8_sign_extends :
    run1 (codeAt signed 0 [0x6A, 0xFF]) (fun t => dword t 0xFFFF8) = some 0xFFFFFFFF := by decide

theorem test_push_m_reads_with_the_old_esp :
    run1 (((code [0xFF, 0x74, 0x24, 0x00]).setReg .esp 0xFFFF8).setWord 0xFFFF8 0x99)
      (fun t => (t.reg .esp, dword t 0xFFFF4, t.pc)) = some (0xFFFF4, 0x99, 4) := by decide

theorem test_pop_esp_keeps_the_loaded_value :
    run1 (((code [0x5C]).setReg .esp 0xFFFF8).setWord 0xFFFF8 0x2000) (fun t => t.reg .esp) = some 0x2000 := by decide

theorem test_pop_r :
    run1 (((code [0x58]).setReg .esp 0xFFFF8).setWord 0xFFFF8 0x55) (fun t => (t.reg .eax, t.reg .esp)) =
      some (0x55, 0xFFFFC) := by decide

/-! ## One step per instruction (95_test_vectors.md 2.5) -/

theorem test_add_r_r_wraps :
    run1 (((code [0x01, 0xC8]).setReg .eax 0xFFFFFFFF).setReg .ecx 2) (fun t => (t.reg .eax, t.reg .ecx, t.flags.word)) =
      some (1, 2, 0) := by decide

theorem test_add_m_r :
    run1 ((((code [0x01, 0x45, 0xFC]).setReg .ebp 0xFFFF4).setReg .eax 3).setWord 0xFFFF0 7) (fun t => dword t 0xFFFF0) =
      some 10 := by decide

theorem test_add_r_m :
    run1 ((((code [0x03, 0x45, 0xFC]).setReg .ebp 0xFFFF4).setReg .eax 7).setWord 0xFFFF0 10) (fun t => t.reg .eax) =
      some 17 := by decide

theorem test_add_eax_imm32 :
    run1 ((code [0x05, 0x01, 0x00, 0x00, 0x00]).setReg .eax 0x7FFFFFFF) (fun t => (t.reg .eax, t.flags.word)) =
      some (0x80000000, 0) := by decide

theorem test_add_r_imm32 :
    run1 ((code [0x81, 0xC1, 0xFF, 0xFF, 0xFF, 0xFF]).setReg .ecx 1) (fun t => (t.reg .ecx, t.pc)) = some (0, 6) := by decide

theorem test_add_r_imm8_sign_extends :
    run1 (code [0x83, 0xC0, 0xFF]) (fun t => t.reg .eax) = some 0xFFFFFFFF := by decide

theorem test_add_m_imm8_sign_extends :
    run1 (((code [0x83, 0x44, 0x24, 0x04, 0x80]).setReg .esp 0xFFFF0).setWord 0xFFFF4 0x80) (fun t => (dword t 0xFFFF4, t.pc)) =
      some (0, 5) := by decide

theorem test_sub_r_r :
    run1 (((code [0x29, 0xD0]).setReg .eax 5).setReg .edx 7) (fun t => (t.reg .eax, t.reg .edx, t.flags.word)) =
      some (0xFFFFFFFE, 7, 0) := by decide

theorem test_sub_m_r :
    run1 ((((code [0x29, 0x45, 0xFC]).setReg .ebp 0xFFFF4).setReg .eax 3).setWord 0xFFFF0 10) (fun t => dword t 0xFFFF0) =
      some 7 := by decide

theorem test_sub_r_m :
    run1 ((((code [0x2B, 0x45, 0xFC]).setReg .ebp 0xFFFF4).setReg .eax 17).setWord 0xFFFF0 10) (fun t => t.reg .eax) =
      some 7 := by decide

theorem test_sub_eax_imm32 :
    run1 (code [0x2D, 0x01, 0x00, 0x00, 0x00]) (fun t => (t.reg .eax, t.flags.word)) = some (0xFFFFFFFF, 0) := by decide

theorem test_sub_r_imm32 :
    run1 (code [0x81, 0xEC, 0x00, 0x01, 0x00, 0x00]) (fun t => t.reg .esp) = some 0xFFEFC := by decide

theorem test_sub_r_imm8_sign_extends :
    run1 ((code [0x83, 0xE9, 0xFF]).setReg .ecx 0xFFFFFFFF) (fun t => t.reg .ecx) = some 0 := by decide

theorem test_sub_m_imm8 :
    run1 ((code [0x83, 0x6C, 0x24, 0x04, 0x01]).setReg .esp 0xFFFF0) (fun t => dword t 0xFFFF4) = some 0xFFFFFFFF := by decide

theorem test_and_r_imm8_sign_extends :
    run1 (code [0x83, 0xE4, 0xF0]) (fun t => t.reg .esp) = some 0xFFFF0 := by decide

theorem test_xor_r_r :
    run1 (((code [0x31, 0xD8]).setReg .eax 0xF0F0F0F0).setReg .ebx 0xFFFF0000) (fun t => (t.reg .eax, t.reg .ebx)) =
      some (0x0F0FF0F0, 0xFFFF0000) := by decide

theorem test_cmp_r_m :
    run1 (((code [0x3B, 0x44, 0x24, 0x00]).setReg .esp 0xFFFF8).setWord 0xFFFF8 1) (fun t => (t.flags.word, t.reg .eax)) =
      some (0x81, 0) := by decide

theorem test_cmp_r_imm8_overflow :
    run1 ((code [0x83, 0xF8, 0x80]).setReg .eax 0x7FFFFFFF) (fun t => t.flags.word) = some 0x881 := by decide

theorem test_cmp_r_imm8_replaces_every_flag :
    run1 (flagged ((code [0x83, 0xF8, 0x01]).setReg .eax 0x80000000) true true true false) (fun t => t.flags.word) =
      some 0x800 := by decide

theorem test_cmp_m_imm8 :
    run1 (((code [0x83, 0x7D, 0xFC, 0x00]).setReg .ebp 0xFFFF4).setWord 0xFFFF0 0xFFFFFFFF)
      (fun t => (t.flags.word, dword t 0xFFFF0)) = some (0x80, 0xFFFFFFFF) := by decide

theorem test_shr_is_logical_and_keeps_flags :
    run1 (flagged ((code [0xD1, 0xE8]).setReg .eax 0x80000001) false true false false) (fun t => (t.reg .eax, t.flags.word)) =
      some (0x40000000, 0x40) := by decide

/-! ## One step per instruction (95_test_vectors.md 2.6) -/

theorem test_call_backwards :
    run1 (codeAt .reset 0x20 [0xE8, 0xF6, 0xFF, 0xFF, 0xFF]) (fun t => (t.reg .esp, dword t 0xFFFF8, t.pc)) =
      some (0xFFFF8, 0x25, 0x1B) := by decide

theorem test_ret_to_an_address :
    run1 (((code [0xC3]).setReg .esp 0xFFFF8).setWord 0xFFFF8 0x200000) (fun t => (t.reg .esp, t.pc, t.status)) =
      some (0xFFFFC, 0x200000, .running) := by decide

theorem test_ret_to_the_sentinel_halts :
    run1 (code [0xC3]) (fun t => (t.reg .esp, t.pc, t.status)) = some (0x100000, 1, .halted) := by decide

theorem test_jmp_backwards : run1 (codeAt .reset 0x100 [0xEB, 0x80]) (fun t => t.pc) = some 0x82 := by decide

theorem test_jz_rel8 :
    run1 (flagged (code [0x74, 0x02]) false true false false) (fun t => t.pc) = some 4 ∧
    run1 (code [0x74, 0x02]) (fun t => t.pc) = some 2 := by decide

theorem test_jnz_rel8 :
    run1 (codeAt .reset 0x0F [0x75, 0xF6]) (fun t => t.pc) = some 7 ∧
    run1 (flagged (codeAt .reset 0x0F [0x75, 0xF6]) false true false false) (fun t => t.pc) = some 0x11 := by decide

theorem test_jg_rel8 :
    run1 (flagged (codeAt .reset 0x12 [0x7F, 0x05]) false false true true) (fun t => t.pc) = some 0x19 ∧
    run1 (flagged (codeAt .reset 0x12 [0x7F, 0x05]) false false true false) (fun t => t.pc) = some 0x14 := by decide

theorem test_jng_rel8 :
    run1 (flagged (codeAt .reset 0x0F [0x7E, 0x02]) false false false true) (fun t => t.pc) = some 0x13 ∧
    run1 (codeAt .reset 0x0F [0x7E, 0x02]) (fun t => t.pc) = some 0x11 := by decide

theorem test_jz_rel32 :
    run1 (flagged (codeAt .reset 0x18 [0x0F, 0x84, 0x01, 0x00, 0x00, 0x00]) false true false false) (fun t => t.pc) = some 0x1F ∧
    run1 (codeAt .reset 0x18 [0x0F, 0x84, 0x01, 0x00, 0x00, 0x00]) (fun t => t.pc) = some 0x1E := by decide

theorem test_jnz_rel32 :
    run1 (code [0x0F, 0x85, 0xFA, 0xFF, 0xFF, 0xFF]) (fun t => t.pc) = some 0 ∧
    run1 (flagged (code [0x0F, 0x85, 0xFA, 0xFF, 0xFF, 0xFF]) false true false false) (fun t => t.pc) = some 6 := by decide

theorem test_nop : run1 (codeAt .reset 7 [0x90]) (fun t => (t.pc, t.regs, t.status)) = some (8, State.reset.regs, .running) := by
  decide

/-! ## Faults (95_test_vectors.md 2.7) -/

theorem test_fault_opcode_zero :
    run1 .reset (fun t => (t.status, t.pc)) =
      some (.fault { cause := .unsupportedOpcode, eip := 0, bytes := [0x00] }, 0) := by decide

theorem test_fault_sub_opcode_before_mode :
    run1 (code [0x83, 0x0C, 0x24]) State.status =
      some (.fault { cause := .unsupportedOpcode, eip := 0, bytes := [0x83, 0x0C] }) := by decide

theorem test_fault_mode_00 :
    run1 (code [0x8B, 0x05, 0x00, 0x00, 0x00, 0x00]) State.status =
      some (.fault { cause := .unsupportedAddressingMode, eip := 0, bytes := [0x8B, 0x05] }) := by decide

theorem test_fault_scaled_index :
    run1 (code [0x8B, 0x44, 0x64, 0x00]) State.status =
      some (.fault { cause := .unsupportedAddressingMode, eip := 0, bytes := [0x8B, 0x44, 0x64] }) := by decide

theorem test_fault_last_byte_outside_memory :
    run1 ((code [0x83, 0x40, 0x00, 0x01]).setReg .eax 0xFFFFD) (fun t => (t.status, t.pc)) =
      some (.fault { cause := .outOfBounds 0xFFFFD 4, eip := 0, bytes := [0x83, 0x40, 0x00, 0x01] }, 0) := by decide

theorem test_fault_push_wraps_below_zero :
    run1 ((code [0x50]).setReg .esp 2) (fun t => (t.status, t.reg .esp)) =
      some (.fault { cause := .outOfBounds 0xFFFFFFFE 4, eip := 0, bytes := [0x50] }, 2) := by decide

theorem test_fault_fetch_runs_off_memory :
    run1 (codeAt (State.start { Config.default with memSize := 0x10 }) 0x0E [0xB8, 0x01]) State.status =
      some (.fault { cause := .outOfBounds 0x10 1, eip := 0x0E, bytes := [0xB8, 0x01] }) := by decide

theorem test_fault_address_overflow :
    run1 ((codeAt strict 0 [0x8D, 0x40, 0x01]).setReg .eax 0x7FFFFFFF) State.status =
      some (.fault { cause := .outOfBounds 0x80000000 4, eip := 0, bytes := [0x8D, 0x40, 0x01] }) := by decide

/-! ## Flags (95_test_vectors.md 1.2, 2.3) and Memory (2.1) -/

theorem test_compare_boundaries :
    (compareValue 0xFFFFFFFF 0xFFFFFFFF).word = 0x40 ∧ (compareValue 0 1).word = 0x81 ∧
    (compareValue 0x80000000 1).word = 0x800 ∧ (compareValue 0x7FFFFFFF 0x80000000).word = 0x881 ∧
    (compareImm8 0 0xFF).word = 0x01 := by decide

theorem test_memory_little_endian_misaligned :
    (State.reset.setWord 0x100 0x11223344).memRead32 0x101 = .ok 0x00112233 ∧
    State.reset.memRead32 0xFFFFD = .error (.outOfBounds 0xFFFFD 4) ∧
    State.reset.memRead32 0xFFFFFFFE = .error (.outOfBounds 0xFFFFFFFE 4) := by decide

theorem test_memory_forgets_zero_bytes : (State.reset.setWord 0x100 0x11223344).setWord 0x100 0 = State.reset := by decide

/-! ## Witnesses: a state and operands that meet the hypotheses of each statement -/

theorem witness_DecodeOfEncode :
    (Instr.movMImm32 { sib := true, base := .esp, disp := .d32 0x80000000 } 0xFFFFFFFF).wf = true ∧
    (Instr.addMR { sib := false, base := .edi, disp := .d8 0x80 } .edi).wf = true := by decide

/-- The longest instruction, and the shortest with bytes behind it. -/
theorem witness_EncodeOfDecode :
    decode [0xC7, 0x84, 0x24, 0x00, 0x00, 0x00, 0x80, 0xFF, 0xFF, 0xFF, 0xFF] =
      .instr (.movMImm32 { sib := true, base := .esp, disp := .d32 0x80000000 } 0xFFFFFFFF) [] ∧
    decode [0x90, 0x01] = .instr .nop [0x01] := by decide

theorem witness_DecodedLengthIsTheFormula : decode [0xFF, 0x74, 0x24, 0x00, 0x90] =
    .instr (.pushM { sib := true, base := .esp, disp := .d8 0 }) [0x90] := by decide

theorem witness_UnsupportedPrimaryOpcodesFault :
    let s := codeAt .reset 0xFFFFF [0xFE]
    s.status = .running ∧ unsupportedPrimary 0xFE ∧ s.pc.toNat < s.cfg.memSize ∧ s.byteAt s.pc.toNat = 0xFE := by decide

/-- A sub-opcode, a SIB byte, a short fetch and a pc outside Memory, as they are fetched. -/
theorem witness_UnsupportedPrimaryOpcodesFault_fetched :
    decode (code [0xD1, 0xE0]).fetchWindow = .reject (.unsupportedOpcode [0xD1, 0xE0]) ∧
    decode (code [0x8B, 0x44, 0x64]).fetchWindow = .reject (.unsupportedAddressingMode [0x8B, 0x44, 0x64]) ∧
    decode (codeAt .reset 0xFFFFE [0xB8, 0x01]).fetchWindow = .reject (.truncated [0xB8, 0x01]) ∧
    decode (State.reset.setPc 0x100000).fetchWindow = .reject (.truncated []) := by decide

/-- The last bytes of Memory: an escape, a mode. -/
theorem witness_UnsupportedPrimaryOpcodesFault_in_memory :
    (codeAt .reset 0xFFFFE [0x0F, 0x1F]).status = .running ∧ bytesAtPc (codeAt .reset 0xFFFFE [0x0F, 0x1F]) [0x0F, 0x1F] ∧
    decode [0x0F, 0x1F] = .reject (.unsupportedOpcode [0x0F, 0x1F]) ∧
    bytesAtPc (codeAt .reset 0xFFFFE [0x8B, 0xC1]) [0x8B, 0xC1] ∧
    decode [0x8B, 0xC1] = .reject (.unsupportedAddressingMode [0x8B, 0xC1]) := by decide

/-- Bytes at the edges of the listed ranges. -/
theorem witness_UnsupportedPrimaryOpcodesAreRejected :
    (∀ op ∈ ([0x00, 0x0E, 0x10, 0x28, 0x4F, 0x60, 0x91, 0xB7, 0xEC, 0xFE] : List Byte), unsupportedPrimary op) ∧
    (∀ op ∈ ([0x01, 0x0F, 0x29, 0x50, 0x5F, 0x90, 0xB8, 0xEB, 0xFF] : List Byte), ¬ unsupportedPrimary op) := by
  simp [unsupportedPrimary, unsupportedPrimaryNumber]

theorem witness_EscapeByteSelectsJzJnz : (0x83 : Byte) ≠ 0x84 ∧ (0x86 : Byte) ≠ 0x85 ∧ (0x83 : Byte) ≠ 0x85 ∧ (0x86 : Byte) ≠ 0x84 := by
  decide

theorem witness_UnsupportedSubOpcodesFault :
    (0x83 : Byte) ∈ ([0x81, 0x83, 0xD1, 0xFF, 0xC7] : List Byte) ∧ ¬ hasRegRow 0x83 (regOf 0x0C) ∧ ¬ hasMemRow 0x83 (regOf 0x0C) := by
  decide

theorem witness_UnadmittedModesFault_mode_00 : (hasRegRow 0x89 (regOf 0x04) ∨ hasMemRow 0x89 (regOf 0x04)) ∧ modOf 0x04 = 0 := by
  decide

theorem witness_UnadmittedModesFault_memory :
    hasRegRow 0x31 (regOf 0x40) ∧ modOf 0x40 = 1 ∧ ¬ hasMemRow 0x31 (regOf 0x40) ∧
    hasRegRow 0xD1 (regOf 0xA8) ∧ modOf 0xA8 = 2 ∧ ¬ hasMemRow 0xD1 (regOf 0xA8) := by decide

theorem witness_UnadmittedModesFault_register :
    hasMemRow 0xFF (regOf 0xF0) ∧ modOf 0xF0 = 3 ∧ ¬ hasRegRow 0xFF (regOf 0xF0) := by decide

theorem witness_UnsupportedSibFaults :
    hasMemRow 0x8B (regOf 0x44) ∧ modOf 0x44 = 1 ∧ rmOf 0x44 = 4 ∧
    ¬ (modOf 0x64 = 0 ∧ regOf 0x64 = 4) ∧ ¬ (modOf 0x0C = 0 ∧ regOf 0x0C = 4) ∧ (modOf 0x24 = 0 ∧ regOf 0x24 = 4) := by decide

theorem witness_RejectionsNameTheirBytes :
    decode [0x0F, 0x1F] = .reject (.unsupportedOpcode [0x0F, 0x1F]) ∧
    decode [0x8B, 0x44, 0x64] = .reject (.unsupportedAddressingMode [0x8B, 0x44, 0x64]) ∧
    decode [0xC7, 0x84, 0x24, 0, 0, 0, 0, 0, 0, 0] = .reject (.truncated [0xC7, 0x84, 0x24, 0, 0, 0, 0, 0, 0, 0]) ∧
    decode [] = .reject (.truncated []) := by decide

theorem witness_StepRunsDecodedInstruction :
    (code [0x90]).status = .running ∧ decode (code [0x90]).fetchWindow = .instr .nop [0, 0, 0, 0, 0, 0, 0, 0, 0, 0] := by decide

/-- The last byte of Memory. -/
theorem witness_StepRunsInstructionInMemory :
    (codeAt .reset 0xFFFFF [0x90]).status = .running ∧ Instr.nop.wf = true ∧
    bytesAtPc (codeAt .reset 0xFFFFF [0x90]) (encode .nop) := by decide

theorem witness_FetchOutOfBoundsFaults :
    let s := codeAt (State.start { Config.default with memSize := 0x10 }) 0x0E [0xB8, 0x01]
    let i := Instr.movRImm32 .eax 1
    s.status = .running ∧ i.wf = true ∧ 2 < (encode i).length ∧ bytesAtPc s ((encode i).take 2) ∧
      s.cfg.memSize ≤ (s.pc + BitVec.ofNat 32 2).toNat := by decide

theorem witness_FetchOutOfBoundsFaults_pc :
    let s := State.reset.setPc 0x100000
    s.status = .running ∧ 0 < (encode .nop).length ∧ bytesAtPc s ((encode .nop).take 0) ∧
      s.cfg.memSize ≤ (s.pc + BitVec.ofNat 32 0).toNat := by decide

theorem witness_RunningCoreAlwaysSteps : State.reset.status = .running := by decide

theorem witness_TerminalStatusHasNoStep : (State.reset.setStatus .halted).status ≠ .running := by decide

/-- A state with a program at address 0 meets the invariant. -/
theorem code_inv : (code [0x90]).Inv := ⟨by decide, by decide, by decide, trivial⟩

theorem witness_StepKeepsInvariant : (code [0x90]).Inv ∧ run1 (code [0x90]) State.pc = some 1 := ⟨code_inv, by decide⟩

/-- The smallest and the largest MEM_SIZE, the image as long as Memory. -/
theorem witness_LoadedStateMeetsInvariant :
    (State.load { Config.default with memSize := 4 } [1, 2, 3, 4]).isSome = true ∧
    (State.load { Config.default with memSize := 2 ^ 32 } []).isSome = true := by decide

theorem witness_LoadedStateHoldsTheImage :
    (State.load Config.default [0xC3]).isSome = true ∧ State.load { Config.default with memSize := 3 } [] = none ∧
    State.load { Config.default with memSize := 2 ^ 32 + 1 } [] = none ∧
    State.load { Config.default with memSize := 4 } [1, 2, 3, 4, 5] = none := by decide

theorem witness_SentinelStandsAtReset :
    (State.load { Config.default with memSize := 8 } [1, 2, 3, 4]).isSome = true ∧ [1, 2, 3, (4 : Byte)].length ≤ 8 - 4 := by decide

/-- A running state whose step is a fault; its record names the opcode. -/
theorem witness_FaultLeavesStateUnchanged :
    State.reset.status = .running ∧
    run1 .reset State.status = some (.fault { cause := .unsupportedOpcode, eip := 0, bytes := [0x00] }) := by decide

/-- A record with all the bytes of an instruction. -/
theorem witness_FaultRecordBytesStandAtEip :
    run1 ((code [0xC3]).setReg .esp 0x100000) State.status =
      some (.fault { cause := .outOfBounds 0x100000 4, eip := 0, bytes := [0xC3] }) := by decide

/-- A mode, a data access and a fetch. -/
theorem witness_FaultRecordShape :
    run1 (code [0x31, 0x40]) State.status =
      some (.fault { cause := .unsupportedAddressingMode, eip := 0, bytes := [0x31, 0x40] }) ∧
    run1 ((code [0x58]).setReg .esp 0xFFFFD) State.status =
      some (.fault { cause := .outOfBounds 0xFFFFD 4, eip := 0, bytes := [0x58] }) ∧
    run1 (State.reset.setPc 0x100000) State.status =
      some (.fault { cause := .outOfBounds 0x100000 1, eip := 0x100000, bytes := [] }) := by decide

theorem witness_OnlyFaultsAndRetEndARun :
    run1 (code [0x90]) State.status = some .running ∧ run1 (code [0xC3]) State.status = some .halted := by decide

theorem witness_ConfigurationIsFixed : exec .nop strict = .next (strict.setPc 1) := rfl

theorem witness_OnlyCmpWritesFlags :
    isCmp .nop = false ∧ exec .nop State.reset = .next (State.reset.setPc 1) := ⟨rfl, rfl⟩

theorem witness_FlagsAreReadOnlyByConditionalJumps :
    isJcc (.movRR .eax .eax) = false ∧ exec (.movRR .eax .eax) State.reset = .next (State.reset.setPc 2) := ⟨rfl, rfl⟩

theorem witness_RegisterWriters : Reg.eax ∉ writesReg (.popR .ecx) ∧ exec .nop State.reset = .next (State.reset.setPc 1) :=
  ⟨by decide, rfl⟩

theorem witness_MemoryWriters :
    writesMem State.reset .nop = none ∧ exec .nop State.reset = .next (State.reset.setPc 1) ∧
    writesMem (State.reset.setReg .esp 4) (.pushImm8 1) = some 0 ∧ (exec (.pushImm8 1) (State.reset.setReg .esp 4) =
      .next (((State.reset.setReg .esp 0).setPc 2).setByte 0 1)) := ⟨rfl, rfl, by decide, rfl⟩

theorem witness_PcOfStraightLineInstructions :
    isTransfer .nop = false ∧ State.reset.status = .running ∧ exec .nop State.reset = .next (State.reset.setPc 1) ∧
    (State.reset.setPc 1).status = .running := ⟨rfl, rfl, rfl, rfl⟩

/-- The last byte and word inside Memory and the first outside. -/
theorem witness_MemReadIsLittleEndian :
    (0xFFFFF : Word).toNat + 1 ≤ State.reset.cfg.memSize ∧ ¬ (0x100000 : Word).toNat + 1 ≤ State.reset.cfg.memSize ∧
    (0xFFFFC : Word).toNat + 4 ≤ State.reset.cfg.memSize ∧ ¬ (0xFFFFD : Word).toNat + 4 ≤ State.reset.cfg.memSize := by decide

theorem witness_MemWriteThenRead :
    State.reset.mem.wf = true ∧ (0xFFFFC : Word).toNat + 4 ≤ State.reset.cfg.memSize := by decide

theorem witness_MemWriteBounds :
    State.reset.mem.wf = true ∧ State.reset.memWrite8 0xFFFFF 0x1FF = .ok (State.reset.setByte 0xFFFFF 0xFF) ∧
    State.reset.cfg.memSize < (0xFFFFD : Word).toNat + 4 ∧ State.reset.cfg.memSize < (0x100000 : Word).toNat + 1 := by decide

/-- A store to the last word of Memory. -/
theorem witness_StoreIsSeenByTheNextFetch :
    let s := (code [0x90]).setReg .ebp 0x100000
    s.Inv ∧ s.status = .running ∧ writesMem s (.movMImm32 local4 0) = some 0xFFFFC ∧
      exec (.movMImm32 local4 0) s = .next (s.setPc 7) ∧ (s.setPc 7).status = .running :=
  ⟨⟨by decide, by decide, by decide, trivial⟩, rfl, by decide, rfl, rfl⟩

/-- A push to the lowest stack slot, over the code there. -/
theorem witness_StoreIsSeenByTheNextFetch_push :
    let s := (code [0x90]).setReg .esp 4
    let t := ((s.setReg .esp 0).setPc 2).setByte 0 0xC3
    s.Inv ∧ s.status = .running ∧ writesMem s (.pushImm8 0xC3) = some 0 ∧ storedWord s (.pushImm8 0xC3) = some 0xC3 ∧
      exec (.pushImm8 0xC3) s = .next t ∧ t.status = .running :=
  ⟨⟨by decide, by decide, by decide, trivial⟩, rfl, by decide, by decide, rfl, rfl⟩

/-- Under `P_EA_OVERFLOW = fault`: the largest and smallest sums that pass, and the next ones, which do not. -/
theorem witness_EffectiveAddress :
    eaOk (strict.setReg .eax 0x7FFFFFFE) { sib := false, base := .eax, disp := .d8 1 } ∧
    ¬ eaOk (strict.setReg .eax 0x7FFFFFFF) { sib := false, base := .eax, disp := .d8 1 } ∧
    eaOk (strict.setReg .eax 0x80000001) { sib := false, base := .eax, disp := .d8 0xFF } ∧
    ¬ eaOk (strict.setReg .eax 0x80000000) { sib := false, base := .eax, disp := .d8 0xFF } := by decide

/-- The operand is the last word of Memory. -/
theorem witness_LoadFromMemory :
    eaOk (State.reset.setReg .ebp 0x100000) local4 ∧ operandInBounds (State.reset.setReg .ebp 0x100000) local4 := by decide

theorem witness_StoreToMemory :
    (State.reset.setReg .ebp 0x100000).mem.wf = true ∧ eaOk (State.reset.setReg .ebp 0x100000) local4 ∧
    operandInBounds (State.reset.setReg .ebp 0x100000) local4 := by decide

/-- The address is no address of Memory. -/
theorem witness_LeaWritesTheAddress : eaOk State.reset local4 ∧ ¬ operandInBounds State.reset local4 := by decide

/-- The lowest stack slot, both extensions, and an operand in bounds. -/
theorem witness_PushStoresBelowTheTop :
    (State.reset.setReg .esp 4).mem.wf = true ∧ pushInBounds (State.reset.setReg .esp 4) ∧
    State.reset.cfg.pushImm8Ext = .zero ∧ pushInBounds signed ∧ signed.cfg.pushImm8Ext = .sign ∧
    eaOk ((State.reset.setReg .esp 4).setReg .ebp 4) local4 ∧ operandInBounds ((State.reset.setReg .esp 4).setReg .ebp 4) local4 := by
  decide

/-- The highest stack slot. -/
theorem witness_PopLoadsTheTop : popInBounds State.reset ∧ Reg.eax ≠ .esp := by decide

theorem witness_PushPopRoundTrip :
    Reg.eax ≠ .esp ∧ Reg.ebx ≠ .esp ∧ (State.reset.setReg .esp 0x100000).mem.wf = true ∧
    pushInBounds (State.reset.setReg .esp 0x100000) := by decide

theorem witness_AddSubOnMemory :
    (State.reset.setReg .ebp 4).mem.wf = true ∧ eaOk (State.reset.setReg .ebp 4) local4 ∧
    operandInBounds (State.reset.setReg .ebp 4) local4 := by decide

theorem witness_CmpWritesTheFlags :
    eaOk (State.reset.setReg .ebp 4) local4 ∧ operandInBounds (State.reset.setReg .ebp 4) local4 := by decide

theorem witness_CallPushesTheReturnAddress :
    (State.reset.setReg .esp 4).mem.wf = true ∧ pushInBounds (State.reset.setReg .esp 4) := by decide

/-- The sentinel and another return address. -/
theorem witness_RetPopsThePcOrHalts :
    popInBounds State.reset ∧ wordNat State.reset (State.reset.reg .esp).toNat = 0 ∧
    popInBounds (State.reset.setWord 0xFFFFC 1) ∧ wordNat (State.reset.setWord 0xFFFFC 1) (State.reset.reg .esp).toNat ≠ 0 := by
  decide

theorem witness_NopAdvancesThePc :
    let s := codeAt .reset 0xFFFFF [0x90]
    s.status = .running ∧ s.pc.toNat < s.cfg.memSize ∧ s.byteAt s.pc.toNat = 0x90 := by decide

/-- The first operand that leaves Memory. -/
theorem witness_DataAccessOutOfBoundsFaults :
    (Instr.addMR local4 .eax).memOp? = some local4 ∧ (∀ r, Instr.addMR local4 .eax ≠ .lea r local4) ∧
    eaOk (State.reset.setReg .ebp 0x100001) local4 ∧ ¬ operandInBounds (State.reset.setReg .ebp 0x100001) local4 :=
  ⟨rfl, by simp, by decide, by decide⟩

theorem witness_StackAccessOutOfBoundsFaults :
    let s := (State.reset.setReg .esp 3).setReg .ebp 4
    ¬ pushInBounds s ∧ eaOk s local4 ∧ operandInBounds s local4 ∧ ¬ popInBounds (State.reset.setReg .esp 0xFFFFD) := by decide

theorem witness_AddressOverflowFaults :
    (Instr.lea .eax local4).memOp? = some local4 ∧ ¬ eaOk (strict.setReg .ebp 0x80000003) local4 := by decide

end Sys2Proof.Tests
end

/-! The statements about the decoder's rejections (30_encoding.md R93, R102, R105): first what each stage of the
decoder answers, then which rejections a stage can give at all, then the obligations. -/

namespace Sys2Proof

open Sys2Proof.Claims

/-! ## Fields of ModRM and SIB by value -/

theorem field53_toNat (b : Byte) : (field53 b).toNat = regOf b := by
  simp [field53, regOf, BitVec.extractLsb'_toNat, Nat.shiftRight_eq_div_pow]

theorem field76_toNat (b : Byte) : (field76 b).toNat = modOf b := by
  have := b.isLt
  simp only [field76, modOf, BitVec.extractLsb'_toNat, Nat.shiftRight_eq_div_pow]
  omega

theorem field20_eq_iff (b : Byte) (n : BitVec 3) : field20 b = n ↔ rmOf b = n.toNat := by
  rw [← BitVec.toNat_inj]
  simp [field20, rmOf, BitVec.extractLsb'_toNat]

theorem field53_eq_iff (b : Byte) (n : BitVec 3) : field53 b = n ↔ regOf b = n.toNat := by
  rw [← BitVec.toNat_inj, field53_toNat]

theorem field76_eq_iff (b : Byte) (n : BitVec 2) : field76 b = n ↔ modOf b = n.toNat := by
  rw [← BitVec.toNat_inj, field76_toNat]

/-! ## What the stages of the decoder answer -/

@[simp] theorem take8_nil (pre : List Byte) (k : Byte → List Byte → List Byte → DecodeResult) :
    take8 pre [] k = .reject (.truncated pre) := rfl

@[simp] theorem take8_cons (pre : List Byte) (b : Byte) (bs : List Byte)
    (k : Byte → List Byte → List Byte → DecodeResult) : take8 pre (b :: bs) k = k b (pre ++ [b]) bs := rfl

/-- Fetching the four bytes of a word in address order gives the word. -/
@[simp] theorem take32_bytesOf (pre : List Byte) (w : Word) (bs : List Byte)
    (k : Word → List Byte → List Byte → DecodeResult) :
    take32 pre (bytesOf w ++ bs) k = k w (pre ++ bytesOf w) bs := by
  simp [take32, bytesOf]

theorem decode_cons (op : Byte) (bs : List Byte) : decode (op :: bs) = decodeOp op bs := rfl

theorem decode_escape_of_none {b2 : Byte} (h : escapeRow b2 = none) (bs : List Byte) :
    decode (0x0F :: b2 :: bs) = .reject (.unsupportedOpcode [0x0F, b2]) := by
  simp [decode_cons, decodeOp, h]

theorem decode_escape_of_some {b2 : Byte} {t : Tail} (h : escapeRow b2 = some t) (bs : List Byte) :
    decode (0x0F :: b2 :: bs) = takeTail t [0x0F, b2] bs := by
  simp [decode_cons, decodeOp, h]

theorem ne_escape_of_hasModRm {op : Byte} (h : hasModRm op = true) : op ≠ 0x0F := by
  rintro rfl
  exact absurd h (by decide)

theorem decode_modRm {op : Byte} (h : hasModRm op = true) (bs : List Byte) :
    decode (op :: bs) = take8 [op] bs fun m _ rest => decodeModRm op m rest := by
  rw [decode_cons, decodeOp, if_neg (ne_escape_of_hasModRm h), if_pos h]

theorem decode_plain_of_none {op : Byte} (he : op ≠ 0x0F) (hm : hasModRm op = false) (h : plainRow op = none)
    (bs : List Byte) : decode (op :: bs) = .reject (.unsupportedOpcode [op]) := by
  rw [decode_cons, decodeOp, if_neg he, if_neg (Bool.eq_false_iff.mp hm), h]

theorem decode_plain_of_some {op : Byte} {t : Tail} (he : op ≠ 0x0F) (hm : hasModRm op = false)
    (h : plainRow op = some t) (bs : List Byte) : decode (op :: bs) = takeTail t [op] bs := by
  rw [decode_cons, decodeOp, if_neg he, if_neg (Bool.eq_false_iff.mp hm), h]

/-- With a "mem" row, modes 01 and 10 go on to the memory operand. -/
theorem decodeModRm_mem {op m : Byte} {rows : Rows} {f : MemOp → Tail} (hrows : modRmRows op (field53 m) = some rows)
    (hmem : rows.mem = some f) (hmode : modOf m = 1 ∨ modOf m = 2) (bs : List Byte) :
    decodeModRm op m bs = takeMemOp op m bs fun a pre rest => takeTail (f a) pre rest := by
  rcases hmode with h | h <;> simp [decodeModRm, hrows, hmem, field76_toNat, h]

/-- The decoder's check of a SIB byte, by value. -/
theorem sib_supported_iff (sib : Byte) : (field76 sib = 0 ∧ field53 sib = 0b100) ↔ (modOf sib = 0 ∧ regOf sib = 4) :=
  and_congr (field76_eq_iff sib 0) (field53_eq_iff sib 4)

section MemOp

variable {op m sib : Byte} (hrm : rmOf m = 4) (bs : List Byte) (k : MemOp → List Byte → List Byte → DecodeResult)
include hrm

theorem takeMemOp_of_sib_unsupported (hsib : ¬ (modOf sib = 0 ∧ regOf sib = 4)) :
    takeMemOp op m (sib :: bs) k = .reject (.unsupportedAddressingMode [op, m, sib]) := by
  rw [takeMemOp, if_pos ((field20_eq_iff m 4).mpr hrm), take8_cons, if_neg (mt (sib_supported_iff sib).mp hsib)]

theorem takeMemOp_of_sib_supported (hsib : modOf sib = 0 ∧ regOf sib = 4) :
    takeMemOp op m (sib :: bs) k = takeDisp (field76 m) [op, m, sib] bs fun d pre rest =>
      k { sib := true, base := .ofNum (field20 sib), disp := d } pre rest := by
  rw [takeMemOp, if_pos ((field20_eq_iff m 4).mpr hrm), take8_cons, if_pos ((sib_supported_iff sib).mpr hsib)]
  rfl

end MemOp

/-! ## Which rejections a stage can give -/

/-- The result is an instruction, or a rejection of which `P` holds. -/
def DecodeResult.RejectsOnly (P : DecodeError → Prop) : DecodeResult → Prop
  | .instr _ _ => True
  | .reject e => P e

@[simp] theorem DecodeResult.rejectsOnly_instr (P : DecodeError → Prop) (i : Instr) (bs : List Byte) :
    (DecodeResult.instr i bs).RejectsOnly P := trivial

theorem DecodeResult.RejectsOnly.ne_reject {P : DecodeError → Prop} {r : DecodeResult} {e : DecodeError}
    (h : r.RejectsOnly P) (he : ¬ P e) : r ≠ .reject e := by
  rintro rfl
  exact he h

section RejectsOnly

/-! Fetching rejects only where the bytes end; `P` admits that. -/

variable {P : DecodeError → Prop} (hP : ∀ bs, P (.truncated bs))
include hP

theorem take8_rejectsOnly {k : Byte → List Byte → List Byte → DecodeResult}
    (hk : ∀ b pre bs, (k b pre bs).RejectsOnly P) : ∀ pre bs, (take8 pre bs k).RejectsOnly P
  | pre, [] => hP pre
  | pre, b :: bs => hk b (pre ++ [b]) bs

theorem take32_rejectsOnly {k : Word → List Byte → List Byte → DecodeResult}
    (hk : ∀ w pre bs, (k w pre bs).RejectsOnly P) (pre bs : List Byte) : (take32 pre bs k).RejectsOnly P :=
  take8_rejectsOnly hP (fun _ => take8_rejectsOnly hP fun _ => take8_rejectsOnly hP fun _ =>
    take8_rejectsOnly hP fun _ => hk _) pre bs

theorem takeTail_rejectsOnly (t : Tail) (pre bs : List Byte) : (takeTail t pre bs).RejectsOnly P := by
  cases t with
  | none i => trivial
  | imm8 f => exact take8_rejectsOnly hP (fun b _ rest => DecodeResult.rejectsOnly_instr P (f b) rest) pre bs
  | imm32 f => exact take32_rejectsOnly hP (fun w _ rest => DecodeResult.rejectsOnly_instr P (f w) rest) pre bs

theorem takeDisp_rejectsOnly {k : Disp → List Byte → List Byte → DecodeResult}
    (hk : ∀ d pre bs, (k d pre bs).RejectsOnly P) (mode : BitVec 2) (pre bs : List Byte) :
    (takeDisp mode pre bs k).RejectsOnly P := by
  unfold takeDisp
  split
  · exact take8_rejectsOnly hP (fun b => hk (.d8 b)) pre bs
  · exact take32_rejectsOnly hP (fun w => hk (.d32 w)) pre bs

theorem takeMemOp_rejectsOnly {op m : Byte} {k : MemOp → List Byte → List Byte → DecodeResult}
    (hmode : ∀ bytes, P (.unsupportedAddressingMode bytes)) (hk : ∀ a pre bs, (k a pre bs).RejectsOnly P)
    (bs : List Byte) : (takeMemOp op m bs k).RejectsOnly P := by
  unfold takeMemOp
  split
  · refine take8_rejectsOnly hP (fun s pre rest => ?_) [op, m] bs
    split
    · exact takeDisp_rejectsOnly hP (fun _ => hk _) _ pre rest
    · exact hmode [op, m, s]
  · exact takeDisp_rejectsOnly hP (fun _ => hk _) _ [op, m] bs

/-- Behind a ModRM byte, an opcode is rejected only together with that byte. -/
theorem decodeModRm_rejectsOnly {op m : Byte} (hop : P (.unsupportedOpcode [op, m]))
    (hmode : ∀ bytes, P (.unsupportedAddressingMode bytes)) (bs : List Byte) : (decodeModRm op m bs).RejectsOnly P := by
  unfold decodeModRm
  split
  · exact hop
  · split
    · exact hmode [op, m]
    · split
      · exact hmode [op, m]
      · exact takeTail_rejectsOnly hP _ _ bs
    · split
      · exact hmode [op, m]
      · exact takeMemOp_rejectsOnly hP hmode (fun _ => takeTail_rejectsOnly hP _) bs

end RejectsOnly

/-! ## Unsupported primary opcodes -/

/-- The bytes that 30_encoding.md R105 lists are those with no entry in any of the decoder's three tables. -/
theorem unsupportedPrimary_iff_no_row :
    ∀ op : Byte, unsupportedPrimary op ↔ op ≠ 0x0F ∧ hasModRm op = false ∧ plainRow op = none := by
  decide

theorem decode_escape_ne_reject_primary : ∀ bs : List Byte, decode (0x0F :: bs) ≠ .reject (.unsupportedOpcode [0x0F])
  | [] => by simp [decode_cons, decodeOp]
  | b2 :: bs => by
    cases h : escapeRow b2 with
    | none => rw [decode_escape_of_none h]; simp
    | some t =>
      rw [decode_escape_of_some h]
      exact (takeTail_rejectsOnly (P := (· ≠ .unsupportedOpcode [0x0F])) (by simp) t _ bs).ne_reject (by simp)

theorem decode_modRm_ne_reject_primary {op : Byte} (h : hasModRm op = true) (bs : List Byte) :
    decode (op :: bs) ≠ .reject (.unsupportedOpcode [op]) := by
  rw [decode_modRm h]
  exact (take8_rejectsOnly (P := (· ≠ .unsupportedOpcode [op])) (by simp)
    (fun m _ => decodeModRm_rejectsOnly (by simp) (by simp) (by simp)) [op] bs).ne_reject (by simp)

theorem decode_plain_ne_reject_primary {op : Byte} {t : Tail} (he : op ≠ 0x0F) (hm : hasModRm op = false)
    (h : plainRow op = some t) (bs : List Byte) : decode (op :: bs) ≠ .reject (.unsupportedOpcode [op]) := by
  rw [decode_plain_of_some he hm h]
  exact (takeTail_rejectsOnly (P := (· ≠ .unsupportedOpcode [op])) (by simp) t _ bs).ne_reject (by simp)

theorem decode_eq_reject_primary_iff_no_row (op : Byte) (bs : List Byte) :
    decode (op :: bs) = .reject (.unsupportedOpcode [op]) ↔ op ≠ 0x0F ∧ hasModRm op = false ∧ plainRow op = none := by
  constructor
  · intro h
    have he : op ≠ 0x0F := by
      rintro rfl
      exact decode_escape_ne_reject_primary bs h
    have hm : hasModRm op = false := Bool.eq_false_iff.mpr fun hm => decode_modRm_ne_reject_primary hm bs h
    exact ⟨he, hm, Option.eq_none_iff_forall_ne_some.mpr fun t ht => decode_plain_ne_reject_primary he hm ht bs h⟩
  · rintro ⟨he, hm, hp⟩
    exact decode_plain_of_none he hm hp bs

/-- Settles O5: both sides say that the byte stands in none of the decoder's three tables. -/
theorem unsupportedPrimaryOpcodesAreRejected : Obligations.UnsupportedPrimaryOpcodesAreRejected := by
  intro op rest
  rw [unsupportedPrimary_iff_no_row, decode_eq_reject_primary_iff_no_row]

/-! ## The 0F escape -/

theorem escapeRow_eq_none {b2 : Byte} (hz : b2 ≠ 0x84) (hnz : b2 ≠ 0x85) : escapeRow b2 = none := by
  unfold escapeRow
  split
  · exact absurd (BitVec.eq_of_toNat_eq ‹_›) hz
  · exact absurd (BitVec.eq_of_toNat_eq ‹_›) hnz
  · rfl

theorem takeTail_imm32_bytesOf (f : Word → Instr) (pre : List Byte) (w : Word) (bs : List Byte) :
    takeTail (.imm32 f) pre (bytesOf w ++ bs) = .instr (f w) bs := take32_bytesOf pre w bs fun w _ rest => .instr (f w) rest

/-- Settles O7: 84 and 85 have the two rows behind the escape, and the four bytes of a word are fetched back as it. -/
theorem escapeByteSelectsJzJnz : Obligations.EscapeByteSelectsJzJnz := by
  refine ⟨fun d rest => ⟨?_, ?_⟩, fun b2 rest hz hnz => decode_escape_of_none (escapeRow_eq_none hz hnz) rest⟩
  · rw [decode_escape_of_some (t := .imm32 .jzRel32) rfl, takeTail_imm32_bytesOf]
  · rw [decode_escape_of_some (t := .imm32 .jnzRel32) rfl, takeTail_imm32_bytesOf]

/-! ## The SIB byte -/

theorem hasModRm_of_hasMemRow {op : Byte} {n : Nat} (h : hasMemRow op n) : hasModRm op = true := by
  simp only [hasMemRow, List.mem_cons, List.not_mem_nil, or_false] at h
  rcases h with h | ⟨rfl, -⟩ | ⟨rfl, -⟩ | ⟨rfl, -⟩
  · rcases h with rfl | rfl | rfl | rfl | rfl | rfl | rfl | rfl <;> rfl
  all_goals rfl

/-- The "mem" rows of 30_encoding.md R97 are in the decoder's table. -/
theorem modRmRows_of_hasMemRow {op : Byte} {n : BitVec 3} (h : hasMemRow op n.toNat) :
    ∃ rows f, modRmRows op n = some rows ∧ rows.mem = some f := by
  simp only [hasMemRow, List.mem_cons, List.not_mem_nil, or_false] at h
  rcases h with h | ⟨rfl, h | h | h⟩ | ⟨rfl, h⟩ | ⟨rfl, h⟩
  · rcases h with rfl | rfl | rfl | rfl | rfl | rfl | rfl | rfl <;> exact ⟨_, _, rfl, rfl⟩
  all_goals simp [modRmRows, h]

/-- In a memory mode of a form with a "mem" row, what stands behind the ModRM byte is a memory operand and a tail. -/
theorem decode_mem {op m : Byte} (hrow : hasMemRow op (regOf m)) (hmode : modOf m = 1 ∨ modOf m = 2) :
    ∃ f : MemOp → Tail, ∀ bs, decode (op :: m :: bs) = takeMemOp op m bs fun a pre rest => takeTail (f a) pre rest := by
  obtain ⟨rows, f, hrows, hmem⟩ := modRmRows_of_hasMemRow (field53_toNat m ▸ hrow)
  exact ⟨f, fun bs => by rw [decode_modRm (hasModRm_of_hasMemRow hrow), take8_cons, decodeModRm_mem hrows hmem hmode]⟩

/-- Settles O10: the SIB check is the last that names a mode; behind it only the end of the bytes rejects. -/
theorem unsupportedSibFaults : Obligations.UnsupportedSibFaults := by
  intro op m sib rest hrow hmode hrm
  obtain ⟨f, hdecode⟩ := decode_mem hrow hmode
  rw [hdecode]
  constructor
  · intro hsib
    exact takeMemOp_of_sib_unsupported hrm rest _ hsib
  · intro hsib e
    rw [takeMemOp_of_sib_supported hrm rest _ hsib]
    have hP : ∀ bs, DecodeError.truncated bs ≠ .unsupportedAddressingMode e := by simp
    exact (takeDisp_rejectsOnly (P := (· ≠ .unsupportedAddressingMode e)) hP
      (fun _ => takeTail_rejectsOnly hP _) _ _ rest).ne_reject (by simp)

end Sys2Proof

/-! The statements about the flags (40_alu_flags.md R132 to R135, R143): what Compare answers, by value, and that a body
that is no compare keeps the flags. -/

namespace Sys2Proof

open Sys2Proof.Machine Sys2Proof.Claims

/-! ## The compare primitive -/

/-- Copying bit 7 into the upper bits keeps the byte's signed value (00_scope.md R11). -/
theorem sext8_eq_sext (b : Byte) : sext8 b = sext b := by
  have hval : b.toInt = if b.toNat < 128 then (b.toNat : Int) else (b.toNat : Int) - 256 := by
    rw [BitVec.toInt_eq_toNat_cond]
    split <;> split <;> omega
  rw [sext8, sext, ← hval]
  rfl

/-- ZF: the difference modulo 2^32 is 0 exactly for equal numbers. -/
theorem sub_eq_zero_iff_toNat_eq (a b : Word) : a - b = 0 ↔ a.toNat = b.toNat := by
  rw [sub_eq_zero, BitVec.toNat_inj]

/-- SF: bit 31 of the difference, by value. -/
theorem msb_sub_eq_decide (a b : Word) :
    (a - b).msb = decide (2 ^ 31 ≤ (a.toNat + 2 ^ 32 - b.toNat) % 2 ^ 32) := by
  have hsub : 2 ^ 32 - b.toNat + a.toNat = a.toNat + 2 ^ 32 - b.toNat := by
    have := b.isLt
    omega
  rw [BitVec.msb_eq_decide, BitVec.toNat_sub, hsub]

/-- OF: failing the range check is lying on one side of the i32 range. -/
theorem not_inRange_eq_decide (d : Int) :
    (!(decide (-(2 ^ 31) ≤ d) && decide (d ≤ 2 ^ 31 - 1))) = decide (d < -(2 ^ 31) ∨ 2 ^ 31 - 1 < d) := by
  rw [Bool.eq_iff_iff]
  simp only [Bool.not_eq_true', Bool.and_eq_false_iff, decide_eq_false_iff_not, decide_eq_true_eq, not_le]

theorem compare_toInt_eq_cmpFlags (a b : Word) : Machine.compare a b b.toInt = cmpFlags a b := by
  simp only [Machine.compare, cmpFlags, sub_eq_zero_iff_toNat_eq, msb_sub_eq_decide, not_inRange_eq_decide]

/-- Settles O37: both calls are Compare with the signed value of its second operand. -/
theorem compareFlags : Obligations.CompareFlags := by
  refine ⟨compare_toInt_eq_cmpFlags, fun a i => ?_⟩
  rw [← sext8_eq_sext]
  exact compare_toInt_eq_cmpFlags a (sext8 i)

/-! ## What an attempt that raised nothing went through -/

/-- A sequence that raises nothing is a first part and a second part that raise nothing. -/
theorem attempt_bind_eq_ok {α β : Type} {x : Attempt α} {f : α → Attempt β} {b : β} (h : (x >>= f) = .ok b) :
    ∃ a, x = .ok a ∧ f a = .ok b := by
  cases x with
  | ok a => exact ⟨a, rfl, h⟩
  | error c => cases h

theorem Machine.State.memWrite32_eq_ok {s t : State} {a v : Word} (h : s.memWrite32 a v = .ok t) :
    t = s.setWord a.toNat v := by
  obtain ⟨-, e⟩ | ⟨-, e⟩ := State.memWrite32_cases s a v
  · exact (Except.ok.inj (e.symm.trans h)).symm
  · cases e.symm.trans h

theorem Machine.State.push_eq_ok {s t : State} {v : Word} (h : s.push v = .ok t) :
    t = (s.setWord (s.reg .esp - 4).toNat v).setReg .esp (s.reg .esp - 4) := by
  obtain ⟨-, e⟩ | ⟨-, e⟩ := State.push_cases s v
  · exact (Except.ok.inj (e.symm.trans h)).symm
  · cases e.symm.trans h

theorem Machine.State.pop_eq_ok {s t : State} {v : Word} (h : s.pop = .ok (v, t)) :
    t = s.setReg .esp (s.reg .esp + 4) := by
  obtain ⟨-, e⟩ | ⟨-, e⟩ := State.pop_cases s
  · exact (Prod.mk.inj (Except.ok.inj (e.symm.trans h))).2.symm
  · cases e.symm.trans h

/-! ## Bodies that keep the flags -/

/-- Whenever the body raises nothing, the flags are those it began with. -/
def KeepsFlags (body : State → Attempt State) : Prop := ∀ w t, body w = .ok t → t.flags = w.flags

/-- A fault keeps the flags whatever the body is, so an instruction keeps them when its body does. -/
theorem flags_of_complete {i : Instr} {s t : State} {body : State → Attempt State} (hb : KeepsFlags body)
    (h : complete i s body = .next t) : t.flags = s.flags := by
  obtain hok | ⟨c, -, rfl⟩ := complete_cases h
  · exact (hb _ t hok).trans (State.flags_advance s i.length)
  · rfl

theorem keepsFlags_ok {f : State → State} (hf : ∀ w, (f w).flags = w.flags) : KeepsFlags fun w => .ok (f w) := by
  rintro w _ ⟨⟩
  exact hf w

/-- A first part that only computes a value, as address computations and reads do, leaves the matter to the second. -/
theorem keepsFlags_bind {α : Type} {x : State → Attempt α} {f : State → α → Attempt State}
    (hf : ∀ a, KeepsFlags fun w => f w a) : KeepsFlags fun w => x w >>= f w := by
  intro w t h
  obtain ⟨a, -, h⟩ := attempt_bind_eq_ok h
  exact hf a w t h

theorem keepsFlags_memWrite32 (a : Word) (v : State → Word) : KeepsFlags fun w => w.memWrite32 a (v w) := by
  intro w t h
  rw [State.memWrite32_eq_ok h, State.flags_setWord]

theorem keepsFlags_push (v : State → Word) : KeepsFlags fun w => w.push (v w) := by
  intro w t h
  rw [State.push_eq_ok h, State.flags_setReg, State.flags_setWord]

/-- A pop, and then a change of the popped state that may depend on the popped value. -/
theorem keepsFlags_pop {f : Word × State → State} (hf : ∀ p, (f p).flags = p.2.flags) :
    KeepsFlags fun w => w.pop >>= fun p => .ok (f p) := by
  intro w t h
  obtain ⟨⟨v, u⟩, hpop, ⟨⟩⟩ := attempt_bind_eq_ok h
  rw [hf, State.pop_eq_ok hpop, State.flags_setReg]

/-- A change of the state a body left. -/
theorem KeepsFlags.bind_ok {body : State → Attempt State} {f : State → State} (hbody : KeepsFlags body)
    (hf : ∀ w, (f w).flags = w.flags) : KeepsFlags fun w => body w >>= fun u => .ok (f u) := by
  intro w t h
  obtain ⟨u, hu, ⟨⟩⟩ := attempt_bind_eq_ok h
  rw [hf, hbody w u hu]

theorem keepsFlags_toReg (r : Reg) (v : State → Word) : KeepsFlags (toReg r v) := keepsFlags_ok fun _ => rfl

theorem keepsFlags_loadTo (r : Reg) (m : MemOp) (f : Word → State → Word) : KeepsFlags (loadTo r m f) :=
  keepsFlags_bind fun _ => keepsFlags_bind fun _ => keepsFlags_ok fun _ => rfl

theorem keepsFlags_storeTo (m : MemOp) (v : State → Word) : KeepsFlags (storeTo m v) :=
  keepsFlags_bind fun a => keepsFlags_memWrite32 a v

theorem keepsFlags_updateMem (m : MemOp) (f : Word → State → Word) : KeepsFlags (updateMem m f) :=
  keepsFlags_bind fun a => keepsFlags_bind fun v => keepsFlags_memWrite32 a (f v)

theorem keepsFlags_jumpIf (c : Cond) (d : Word) : KeepsFlags (jumpIf c d) :=
  keepsFlags_ok fun w => by split <;> rfl

/-! ## Only the CMP forms write flags -/

/-- Every meaning but CMP's is `complete` of a body that keeps the flags: grouped by the shape of the body. -/
theorem flags_of_exec {i : Instr} {s t : State} (hcmp : isCmp i = false) (h : exec i s = .next t) :
    t.flags = s.flags := by
  cases i
  case cmpRM | cmpRImm8 | cmpMImm8 => cases hcmp
  all_goals simp only [exec, execAddRR, execAddMR, execAddRM, execAddEaxImm32, execSubRR, execSubMR, execSubRM,
    execSubEaxImm32, execXorRR, execPushR, execPopR, execPushImm8, execJzRel8, execJnzRel8, execJngRel8, execJgRel8,
    execAddRImm32, execSubRImm32, execAddRImm8, execAddMImm8, execAndRImm8, execSubRImm8, execSubMImm8, execMovRR,
    execMovMR, execMovRM, execLea, execNop, execMovRImm32, execRet, execMovMImm32, execShrR, execCallRel32, execJmpRel8,
    execPushM, execJzRel32, execJnzRel32] at h
  all_goals refine flags_of_complete ?_ h
  case addRR | addEaxImm32 | addRImm32 | addRImm8 | subRR | subEaxImm32 | subRImm32 | subRImm8 | xorRR | andRImm8 |
      shrR | movRR | movRImm32 => exact keepsFlags_toReg _ _
  case addRM | subRM | movRM => exact keepsFlags_loadTo _ _ _
  case addMR | addMImm8 | subMR | subMImm8 => exact keepsFlags_updateMem _ _
  case movMR | movMImm32 => exact keepsFlags_storeTo _ _
  case lea => exact keepsFlags_bind fun _ => keepsFlags_ok fun _ => rfl
  case pushR | pushImm8 => exact keepsFlags_push _
  case pushM => exact keepsFlags_bind fun _ => keepsFlags_bind fun v => keepsFlags_push fun _ => v
  case popR => exact keepsFlags_pop fun _ => rfl
  case ret => exact keepsFlags_pop fun _ => by split <;> rfl
  case callRel32 => exact (keepsFlags_push _).bind_ok fun _ => rfl
  case jzRel8 | jnzRel8 | jgRel8 | jngRel8 | jzRel32 | jnzRel32 => exact keepsFlags_jumpIf _ _
  case jmpRel8 | nop => exact keepsFlags_ok fun _ => rfl

/-- Settles O28: no body but CMP's sets the flags, and fault entry keeps them. -/
theorem onlyCmpWritesFlags : Obligations.OnlyCmpWritesFlags := fun _ _ _ => flags_of_exec

end Sys2Proof

/-! The statement about NOP (44_control_transfer.md R251): the byte fetched at the pc selects the row of the plain
opcodes that ends with the opcode, and the body of the meaning is the state after the pc's advance. -/

namespace Sys2Proof

open Sys2Proof.Machine Sys2Proof.Claims

/-! ## Fetching and stepping -/

theorem Machine.State.memRead8_ok {s : State} {a : Word} (h : a.toNat < s.cfg.memSize) :
    s.memRead8 a = .ok (s.byteAt a.toNat) :=
  if_pos ((State.inBounds_iff ..).2 h)

/-- With the pc inside Memory the fetch sees the byte at the pc first (20_memory.md R67). -/
theorem Machine.State.fetchWindow_eq_cons {s : State} (h : s.pc.toNat < s.cfg.memSize) :
    s.fetchWindow = s.byteAt s.pc.toNat :: s.bytesFrom (maxInstrLength - 1) (s.pc + 1) := by
  simp [State.fetchWindow, maxInstrLength, State.bytesFrom, State.memRead8_ok h]

theorem step_of_decode_eq_instr {s : State} {i : Instr} {rest : List Byte} (hrun : s.status = .running)
    (hdec : decode s.fetchWindow = .instr i rest) : step s = exec i s := by
  simp only [step, hrun, hdec]

/-! ## NOP -/

theorem decode_nop_cons (bs : List Byte) : decode (0x90 :: bs) = .instr .nop bs :=
  decode_plain_of_some (op := 0x90) (by decide) (by decide) rfl bs

theorem exec_nop (s : State) : exec .nop s = .next (s.advance 1) := complete_ok rfl

/-- Settles O57: the fetched byte decodes to NOP whatever follows it, and NOP's body only keeps the pc's advance. -/
theorem nopAdvancesThePc : Obligations.NopAdvancesThePc := by
  refine ⟨rfl, fun s => ⟨exec_nop s, fun hrun hpc hbyte => ?_⟩⟩
  have hdec : decode s.fetchWindow = .instr .nop (s.bytesFrom (maxInstrLength - 1) (s.pc + 1)) := by
    rw [State.fetchWindow_eq_cons hpc, hbyte, decode_nop_cons]
  exact (step_of_decode_eq_instr hrun hdec).trans (exec_nop s)

end Sys2Proof

/-! The decoder as a whole (30_encoding.md sections 1 to 6): each row of its tables encodes the bytes that select it, what
it answers was read from the front of the bytes, bytes behind what it has settled do not matter, and it undoes the
encoder. -/

namespace Sys2Proof

open Sys2Proof.Claims

/-! ## What the rows of the tables encode -/

/-- With `pre` before it, a row's immediate completes the encoding of a well-formed instruction. -/
def Tail.Encodes (pre : List Byte) : Tail → Prop
  | .none i => i.wf = true ∧ encode i = pre
  | .imm8 f => ∀ b, (f b).wf = true ∧ encode (f b) = pre ++ [b]
  | .imm32 f => ∀ w, (f w).wf = true ∧ encode (f w) = pre ++ bytesOf w

theorem eq_ofNat_of_toNat_eq {w n : Nat} {b : BitVec w} (h : b.toNat = n) : b = BitVec.ofNat w n := by
  rw [← h, BitVec.ofNat_toNat, BitVec.setWidth_eq]

/-- A "+r" opcode is its five fixed bits and the number of the register it names. -/
theorem plusR_fields (op : Byte) : plusR (op.extractLsb' 3 5) (.ofNum (field20 op)) = op := by
  revert op; decide

theorem plusR_of_fixedBits {op : Byte} {n : Nat} (h : (op.extractLsb' 3 5).toNat = n) :
    plusR (BitVec.ofNat 5 n) (.ofNum (field20 op)) = op := by
  rw [← eq_ofNat_of_toNat_eq h, plusR_fields]

theorem encodes_of_escapeRow {b2 : Byte} {t : Tail} (h : escapeRow b2 = some t) : t.Encodes [0x0F, b2] := by
  unfold escapeRow at h
  split at h
  case h_3 => cases h
  all_goals
    obtain rfl := eq_ofNat_of_toNat_eq ‹_›
    cases h
    exact fun w => ⟨rfl, rfl⟩

theorem encodes_of_plainRow {op : Byte} {t : Tail} (h : plainRow op = some t) : t.Encodes [op] := by
  unfold plainRow at h
  split at h
  case h_12 =>
    split at h
    case h_4 => cases h
    all_goals
      cases h
      have hop := plusR_of_fixedBits ‹(op.extractLsb' 3 5).toNat = _›
      simpa [Tail.Encodes, Instr.wf, Instr.memOp?, encode] using hop
  all_goals
    obtain rfl := eq_ofNat_of_toNat_eq ‹_›
    cases h
    simp [Tail.Encodes, Instr.wf, Instr.memOp?, encode]

theorem encodes_reg_of_modRmRows {op : Byte} {n : BitVec 3} {rows : Rows} {f : Reg → Tail}
    (h : modRmRows op n = some rows) (hf : rows.reg = some f) (rm : Reg) : (f rm).Encodes [op, regModRm rm n] := by
  unfold modRmRows at h
  split at h
  all_goals cases h
  all_goals cases hf
  all_goals obtain rfl := eq_ofNat_of_toNat_eq ‹op.toNat = _›
  case h_1 | h_3 | h_5 | h_13 => simp [Tail.Encodes, Instr.wf, Instr.memOp?, encode]
  all_goals
    obtain rfl := eq_ofNat_of_toNat_eq ‹n.toNat = _›
    simp [Tail.Encodes, Instr.wf, Instr.memOp?, encode]

theorem encodes_mem_of_modRmRows {op : Byte} {n : BitVec 3} {rows : Rows} {f : MemOp → Tail}
    (h : modRmRows op n = some rows) (hf : rows.mem = some f) {m : MemOp} (hm : m.wf = true) :
    (f m).Encodes (op :: m.bytes n) := by
  unfold modRmRows at h
  split at h
  all_goals cases h
  all_goals cases hf
  all_goals obtain rfl := eq_ofNat_of_toNat_eq ‹op.toNat = _›
  case h_9 | h_11 | h_12 | h_16 | h_18 =>
    obtain rfl := eq_ofNat_of_toNat_eq ‹n.toNat = _›
    simp [Tail.Encodes, Instr.wf, Instr.memOp?, encode, hm]
  all_goals simp [Tail.Encodes, Instr.wf, Instr.memOp?, encode, hm]

/-! ## What was read -/

/-- What decoding `bs` answers was read from its front: the encoding of a well-formed instruction, the bytes of a rejected
opcode (at most two) or mode (at most three, the first no escape), or every byte there was, fewer than eleven. -/
def DecodeResult.ReadFrom (bs : List Byte) : DecodeResult → Prop
  | .instr i rest => i.wf = true ∧ encode i ++ rest = bs
  | .reject (.unsupportedOpcode e) => e <+: bs ∧ (e.length = 1 ∨ e.length = 2)
  | .reject (.unsupportedAddressingMode e) => e <+: bs ∧ (e.length = 2 ∨ e.length = 3) ∧ e.head? ≠ some 0x0F
  | .reject (.truncated e) => e = bs ∧ bs.length < maxInstrLength

@[simp] theorem bytesOf_wordOf (b0 b1 b2 b3 : Byte) : bytesOf (wordOf b0 b1 b2 b3) = [b0, b1, b2, b3] := by
  simp [bytesOf]

theorem packByte_of_fields {b : Byte} {hi : BitVec 2} {mid lo : BitVec 3} (hhi : field76 b = hi) (hmid : field53 b = mid)
    (hlo : field20 b = lo) : packByte hi mid lo = b := by
  rw [← hhi, ← hmid, ← hlo, packByte_fields]

section ReadFrom

/-! A stage that has read `pre` of the bytes `all` and has `bs` left answers something read from `all` if its continuation
does. The bound on `pre` leaves room for the bytes the stage can still fetch. -/

variable {pre bs all : List Byte} (hall : pre ++ bs = all)
include hall

theorem take8_readFrom {k : Byte → List Byte → List Byte → DecodeResult} (hlen : pre.length < maxInstrLength)
    (hk : ∀ b rest, pre ++ [b] ++ rest = all → (k b (pre ++ [b]) rest).ReadFrom all) : (take8 pre bs k).ReadFrom all := by
  cases bs with
  | nil =>
    obtain rfl : pre = all := by simpa using hall
    exact ⟨rfl, hlen⟩
  | cons b rest => exact hk b rest (by simpa using hall)

theorem take32_readFrom {k : Word → List Byte → List Byte → DecodeResult} (hlen : pre.length + 3 < maxInstrLength)
    (hk : ∀ w rest, pre ++ bytesOf w ++ rest = all → (k w (pre ++ bytesOf w) rest).ReadFrom all) :
    (take32 pre bs k).ReadFrom all := by
  refine take8_readFrom hall (by omega) fun b0 r0 h0 => ?_
  refine take8_readFrom h0 (by simp; omega) fun b1 r1 h1 => ?_
  refine take8_readFrom h1 (by simp; omega) fun b2 r2 h2 => ?_
  refine take8_readFrom h2 (by simp; omega) fun b3 r3 h3 => ?_
  simpa using hk (wordOf b0 b1 b2 b3) r3 (by simpa using h3)

theorem takeTail_readFrom {t : Tail} (ht : t.Encodes pre) (hlen : pre.length + 3 < maxInstrLength) :
    (takeTail t pre bs).ReadFrom all := by
  cases t with
  | none i => exact ⟨ht.1, by rw [ht.2, hall]⟩
  | imm8 f =>
    refine take8_readFrom hall (by omega) (k := fun b _ rest => .instr (f b) rest) fun b rest h => ?_
    exact ⟨(ht b).1, by rw [(ht b).2, h]⟩
  | imm32 f =>
    refine take32_readFrom hall hlen (k := fun w _ rest => .instr (f w) rest) fun w rest h => ?_
    exact ⟨(ht w).1, by rw [(ht w).2, h]⟩

theorem takeDisp_readFrom {k : Disp → List Byte → List Byte → DecodeResult} {mode : BitVec 2}
    (hmode : mode = 1 ∨ mode = 2) (hlen : pre.length + 3 < maxInstrLength)
    (hk : ∀ d rest, d.mode = mode → pre ++ d.bytes ++ rest = all → (k d (pre ++ d.bytes) rest).ReadFrom all) :
    (takeDisp mode pre bs k).ReadFrom all := by
  unfold takeDisp
  split
  · next h1 => exact take8_readFrom hall (by omega) fun b rest h => hk (.d8 b) rest h1.symm h
  · next h1 => exact take32_readFrom hall hlen fun w rest h => hk (.d32 w) rest (hmode.resolve_left h1).symm h

end ReadFrom

theorem memoryMode_of_ne : ∀ {mode : BitVec 2}, mode.toNat ≠ 0 → mode.toNat ≠ 3 → mode = 1 ∨ mode = 2 := by decide

section ModRm

variable {op m : Byte} {bs all : List Byte} (hop : op ≠ 0x0F) (hall : op :: m :: bs = all)
include hop hall

/-- A rejection that names the opcode and the ModRM byte, which is no escape's. -/
theorem reject_mode_readFrom : (DecodeResult.reject (.unsupportedAddressingMode [op, m])).ReadFrom all :=
  ⟨⟨bs, hall⟩, .inl rfl, by simpa using hop⟩

/-- The memory operand that was read is well formed, and its addressing bytes are those that were read. -/
theorem takeMemOp_readFrom {k : MemOp → List Byte → List Byte → DecodeResult} (hmode : field76 m = 1 ∨ field76 m = 2)
    (hk : ∀ a rest, a.wf = true → op :: a.bytes (field53 m) ++ rest = all →
      (k a (op :: a.bytes (field53 m)) rest).ReadFrom all) : (takeMemOp op m bs k).ReadFrom all := by
  unfold takeMemOp
  split
  · next hrm =>
    refine take8_readFrom (pre := [op, m]) hall (by simp [maxInstrLength]) fun s rest hs => ?_
    split
    · next hsib =>
      refine takeDisp_readFrom hs hmode (by simp [maxInstrLength]) fun d rest' hd h => ?_
      have hm := packByte_of_fields hd.symm rfl hrm
      have hs := packByte_of_fields hsib.1 hsib.2 rfl
      have hbytes : [op, m] ++ [s] ++ d.bytes =
          op :: MemOp.bytes { sib := true, base := .ofNum (field20 s), disp := d } (field53 m) := by
        rw [MemOp.bytes, if_pos rfl, hm, Reg.num_ofNum, hs]
        rfl
      rw [hbytes] at h ⊢
      exact hk _ rest' rfl h
    · exact ⟨⟨rest, hs⟩, .inr rfl, by simpa using hop⟩
  · next hrm =>
    refine takeDisp_readFrom (pre := [op, m]) hall hmode (by simp [maxInstrLength]) fun d rest hd h => ?_
    have hm := packByte_of_fields hd.symm rfl (Reg.num_ofNum (field20 m)).symm
    have hwf : Reg.ofNum (field20 m) ≠ .esp := fun h => hrm (by rw [← Reg.num_ofNum (field20 m), h]; rfl)
    have hbytes : [op, m] ++ d.bytes =
        op :: MemOp.bytes { sib := false, base := .ofNum (field20 m), disp := d } (field53 m) := by
      rw [MemOp.bytes, if_neg Bool.false_ne_true, hm]
      rfl
    rw [hbytes] at h ⊢
    exact hk _ rest (by simpa [MemOp.wf] using hwf) h

theorem decodeModRm_readFrom : (decodeModRm op m bs).ReadFrom all := by
  unfold decodeModRm
  split
  · exact ⟨⟨bs, hall⟩, .inr rfl⟩
  · next rows hrows =>
    split
    · exact reject_mode_readFrom hop hall
    · next hmode =>
      split
      · exact reject_mode_readFrom hop hall
      · next f hreg =>
        have hm : regModRm (.ofNum (field20 m)) (field53 m) = m :=
          packByte_of_fields (eq_ofNat_of_toNat_eq hmode) rfl (Reg.num_ofNum _).symm
        have ht := encodes_reg_of_modRmRows hrows hreg (.ofNum (field20 m))
        rw [hm] at ht
        exact takeTail_readFrom (pre := [op, m]) hall ht (by simp [maxInstrLength])
    · next h0 h3 =>
      split
      · exact reject_mode_readFrom hop hall
      · next f hmem =>
        have hmode : field76 m = 1 ∨ field76 m = 2 := memoryMode_of_ne h0 h3
        refine takeMemOp_readFrom hop hall hmode fun a rest hwf h => ?_
        have hlen := a.length_bounds
        refine takeTail_readFrom h (encodes_mem_of_modRmRows hrows hmem hwf) ?_
        simp [maxInstrLength]
        omega

end ModRm

theorem decodeOp_readFrom (op : Byte) (bs : List Byte) : (decodeOp op bs).ReadFrom (op :: bs) := by
  unfold decodeOp
  split
  · next hesc =>
    subst hesc
    refine take8_readFrom (pre := [0x0F]) rfl (by simp [maxInstrLength]) fun b2 rest h => ?_
    split
    · exact ⟨⟨rest, h⟩, .inr rfl⟩
    · next t ht => exact takeTail_readFrom h (encodes_of_escapeRow ht) (by simp [maxInstrLength])
  · next hesc =>
    split
    · exact take8_readFrom (pre := [op]) rfl (by simp [maxInstrLength]) fun m rest h => decodeModRm_readFrom hesc h
    · split
      · exact ⟨⟨bs, rfl⟩, .inl rfl⟩
      · next t ht => exact takeTail_readFrom (pre := [op]) rfl (encodes_of_plainRow ht) (by simp [maxInstrLength])

/-- Everything `decode` can answer. -/
theorem decode_readFrom (bs : List Byte) : (decode bs).ReadFrom bs :=
  take8_readFrom (pre := []) rfl (by simp [maxInstrLength]) fun op rest h => h ▸ decodeOp_readFrom op rest

/-- Settles O3: an instruction that was decoded is the one whose encoding was read. -/
theorem encodeOfDecode : Obligations.EncodeOfDecode := by
  intro bs rest i h
  have hread := decode_readFrom bs
  rw [h] at hread
  exact hread

/-- Settles O11: a rejection names bytes it has read. -/
theorem rejectionsNameTheirBytes : Obligations.RejectionsNameTheirBytes := by
  intro bs e
  have hread := decode_readFrom bs
  refine ⟨fun h => ?_, fun h => ?_, fun h => ?_⟩ <;> rw [h] at hread
  · exact hread
  · exact ⟨hread.1, hread.2.1⟩
  · exact hread

/-! ## Bytes behind what was settled -/

/-- The second result is the first as it is when the bytes `x` follow: an instruction leaves them too, a rejected opcode
or mode stays. Where the bytes ended too early, more bytes may give anything. -/
def DecodeResult.ExtendsBy (x : List Byte) : DecodeResult → DecodeResult → Prop
  | .instr i rest, r => r = .instr i (rest ++ x)
  | .reject (.truncated _), _ => True
  | .reject e, r => r = .reject e

theorem take8_extendsBy {x : List Byte} {k : Byte → List Byte → List Byte → DecodeResult}
    (hk : ∀ b pre bs, (k b pre bs).ExtendsBy x (k b pre (bs ++ x))) :
    ∀ pre bs, (take8 pre bs k).ExtendsBy x (take8 pre (bs ++ x) k)
  | _, [] => trivial
  | pre, b :: bs => hk b (pre ++ [b]) bs

theorem take32_extendsBy {x : List Byte} {k : Word → List Byte → List Byte → DecodeResult}
    (hk : ∀ w pre bs, (k w pre bs).ExtendsBy x (k w pre (bs ++ x))) :
    ∀ pre bs, (take32 pre bs k).ExtendsBy x (take32 pre (bs ++ x) k) :=
  take8_extendsBy fun _ => take8_extendsBy fun _ => take8_extendsBy fun _ => take8_extendsBy fun _ => hk _

theorem takeTail_extendsBy (x : List Byte) (t : Tail) (pre bs : List Byte) :
    (takeTail t pre bs).ExtendsBy x (takeTail t pre (bs ++ x)) := by
  cases t with
  | none i => rfl
  | imm8 f => exact take8_extendsBy (k := fun b _ rest => .instr (f b) rest) (fun _ _ _ => rfl) pre bs
  | imm32 f => exact take32_extendsBy (k := fun w _ rest => .instr (f w) rest) (fun _ _ _ => rfl) pre bs

theorem takeDisp_extendsBy {x : List Byte} {k : Disp → List Byte → List Byte → DecodeResult}
    (hk : ∀ d pre bs, (k d pre bs).ExtendsBy x (k d pre (bs ++ x))) (mode : BitVec 2) (pre bs : List Byte) :
    (takeDisp mode pre bs k).ExtendsBy x (takeDisp mode pre (bs ++ x) k) := by
  unfold takeDisp
  split
  · exact take8_extendsBy (fun b => hk (.d8 b)) pre bs
  · exact take32_extendsBy (fun w => hk (.d32 w)) pre bs

theorem takeMemOp_extendsBy {x : List Byte} {op m : Byte} {k : MemOp → List Byte → List Byte → DecodeResult}
    (hk : ∀ a pre bs, (k a pre bs).ExtendsBy x (k a pre (bs ++ x))) (bs : List Byte) :
    (takeMemOp op m bs k).ExtendsBy x (takeMemOp op m (bs ++ x) k) := by
  unfold takeMemOp
  split
  · refine take8_extendsBy (fun s pre rest => ?_) [op, m] bs
    split
    · exact takeDisp_extendsBy (fun _ => hk _) _ pre rest
    · rfl
  · exact takeDisp_extendsBy (fun _ => hk _) _ [op, m] bs

theorem decodeModRm_extendsBy (x : List Byte) (op m : Byte) (bs : List Byte) :
    (decodeModRm op m bs).ExtendsBy x (decodeModRm op m (bs ++ x)) := by
  unfold decodeModRm
  split
  · rfl
  · split
    · rfl
    · split
      · rfl
      · exact takeTail_extendsBy x _ _ bs
    · split
      · rfl
      · exact takeMemOp_extendsBy (fun _ => takeTail_extendsBy x _) bs

theorem decodeOp_extendsBy (x : List Byte) (op : Byte) (bs : List Byte) :
    (decodeOp op bs).ExtendsBy x (decodeOp op (bs ++ x)) := by
  unfold decodeOp
  split
  · refine take8_extendsBy (fun b2 pre rest => ?_) [op] bs
    split
    · rfl
    · exact takeTail_extendsBy x _ pre rest
  · split
    · exact take8_extendsBy (fun m _ rest => decodeModRm_extendsBy x op m rest) [op] bs
    · split
      · rfl
      · exact takeTail_extendsBy x _ [op] bs

theorem decode_extendsBy (x bs : List Byte) : (decode bs).ExtendsBy x (decode (bs ++ x)) :=
  take8_extendsBy (fun op _ rest => decodeOp_extendsBy x op rest) [] bs

theorem decode_append_of_instr {bs rest : List Byte} {i : Instr} (h : decode bs = .instr i rest) (x : List Byte) :
    decode (bs ++ x) = .instr i (rest ++ x) := by
  have hext := decode_extendsBy x bs
  rwa [h] at hext

theorem decode_append_of_unsupportedOpcode {bs e : List Byte} (h : decode bs = .reject (.unsupportedOpcode e))
    (x : List Byte) : decode (bs ++ x) = .reject (.unsupportedOpcode e) := by
  have hext := decode_extendsBy x bs
  rwa [h] at hext

theorem decode_append_of_unsupportedAddressingMode {bs e : List Byte}
    (h : decode bs = .reject (.unsupportedAddressingMode e)) (x : List Byte) :
    decode (bs ++ x) = .reject (.unsupportedAddressingMode e) := by
  have hext := decode_extendsBy x bs
  rwa [h] at hext

/-! ## Decoding an encoding -/

theorem takeTail_imm8_cons (f : Byte → Instr) (pre : List Byte) (b : Byte) (bs : List Byte) :
    takeTail (.imm8 f) pre (b :: bs) = .instr (f b) bs := rfl

theorem takeTail_none (i : Instr) (pre bs : List Byte) : takeTail (.none i) pre bs = .instr i bs := rfl

/-- The displacement bytes are read back in their own mode. -/
theorem takeDisp_bytes (d : Disp) (pre bs : List Byte) (k : Disp → List Byte → List Byte → DecodeResult) :
    takeDisp d.mode pre (d.bytes ++ bs) k = k d (pre ++ d.bytes) bs := by
  cases d with
  | d8 b => rfl
  | d32 w => exact take32_bytesOf pre w bs fun w pre rest => k (.d32 w) pre rest

theorem Reg.num_eq_four_iff (r : Reg) : r.num = 0b100 ↔ r = .esp := by cases r <;> decide

theorem modOf_packByte (hi : BitVec 2) (mid lo : BitVec 3) : modOf (packByte hi mid lo) = hi.toNat := by
  rw [← field76_toNat, field76_packByte]

theorem Disp.mode_toNat (d : Disp) : d.mode.toNat = 1 ∨ d.mode.toNat = 2 := by
  cases d
  · exact .inl rfl
  · exact .inr rfl

section Row

variable {op : Byte} {n : BitVec 3} {rows : Rows} (hop : hasModRm op = true) (hrows : modRmRows op n = some rows)
include hop hrows

/-- A register operand is read back. -/
theorem decode_regModRm {f : Reg → Tail} (hreg : rows.reg = some f) (rm : Reg) (bs : List Byte) :
    decode (op :: regModRm rm n :: bs) = takeTail (f rm) [op, regModRm rm n] bs := by
  rw [decode_modRm hop, take8_cons]
  simp [decodeModRm, regModRm, hrows, hreg]

/-- A well-formed memory operand is read back. -/
theorem decode_memBytes {f : MemOp → Tail} (hmem : rows.mem = some f) {a : MemOp} (ha : a.wf = true) (bs : List Byte) :
    decode (op :: (a.bytes n ++ bs)) = takeTail (f a) (op :: a.bytes n) bs := by
  obtain ⟨sib, base, d⟩ := a
  have hmode (lo : BitVec 3) : modOf (packByte d.mode n lo) = 1 ∨ modOf (packByte d.mode n lo) = 2 :=
    modOf_packByte .. ▸ d.mode_toNat
  have hdecode (lo : BitVec 3) (bs : List Byte) := decodeModRm_mem (by rw [field53_packByte, hrows]) hmem (hmode lo) bs
  rw [decode_modRm hop]
  cases sib with
  | false =>
    have hbase : base.num ≠ 0b100 := mt base.num_eq_four_iff.mp (by simpa [MemOp.wf] using ha)
    refine (hdecode base.num (d.bytes ++ bs)).trans ?_
    rw [takeMemOp, field20_packByte, if_neg hbase, field76_packByte, takeDisp_bytes, Reg.ofNum_num]
    rfl
  | true =>
    refine (hdecode 0b100 (packByte 0 0b100 base.num :: (d.bytes ++ bs))).trans ?_
    rw [takeMemOp, field20_packByte, if_pos rfl, take8_cons, field76_packByte, field53_packByte, if_pos ⟨rfl, rfl⟩,
      field76_packByte, takeDisp_bytes, field20_packByte, Reg.ofNum_num]
    rfl

end Row

/-- The "+r" opcodes are plain opcodes with a row for every register. -/
theorem plainRow_plusR (r : Reg) :
    plainRow (plusR 0b01010 r) = some (.none (.pushR r)) ∧ plainRow (plusR 0b01011 r) = some (.none (.popR r)) ∧
      plainRow (plusR 0b10111 r) = some (.imm32 (.movRImm32 r)) := by
  cases r <;> exact ⟨rfl, rfl, rfl⟩

theorem ne_escape_of_plainRow :
    ∀ op : Byte, (plainRow op).isSome = true → op ≠ 0x0F ∧ hasModRm op = false := by
  decide

/-- A plain row is selected by its opcode alone. -/
theorem decode_of_plainRow {op : Byte} {t : Tail} (h : plainRow op = some t) (bs : List Byte) :
    decode (op :: bs) = takeTail t [op] bs := by
  obtain ⟨hesc, hmod⟩ := ne_escape_of_plainRow op (Option.isSome_of_mem h)
  exact decode_plain_of_some hesc hmod h bs

/-- Settles O2: the opcode and the addressing bytes select the instruction's row, whose tail reads the immediate. -/
theorem decodeOfEncode : Obligations.DecodeOfEncode := by
  intro i rest hwf
  cases i
  case pushR r => exact decode_of_plainRow (plainRow_plusR r).1 rest
  case popR r => exact decode_of_plainRow (plainRow_plusR r).2.1 rest
  case movRImm32 r imm => exact (decode_of_plainRow (plainRow_plusR r).2.2 _).trans (takeTail_imm32_bytesOf ..)
  case nop | ret => exact (decode_of_plainRow rfl rest).trans (takeTail_none ..)
  case pushImm8 | jzRel8 | jnzRel8 | jngRel8 | jgRel8 | jmpRel8 =>
    exact (decode_of_plainRow rfl _).trans (takeTail_imm8_cons ..)
  case addEaxImm32 | subEaxImm32 | callRel32 => exact (decode_of_plainRow rfl _).trans (takeTail_imm32_bytesOf ..)
  case jzRel32 | jnzRel32 => exact (decode_escape_of_some rfl _).trans (takeTail_imm32_bytesOf ..)
  case addRR | subRR | xorRR | movRR | shrR =>
    exact (decode_regModRm rfl rfl rfl _ rest).trans (by simp [takeTail])
  case addRImm8 | andRImm8 | subRImm8 | cmpRImm8 =>
    exact (decode_regModRm rfl rfl rfl _ _).trans (takeTail_imm8_cons ..)
  case addRImm32 | subRImm32 => exact (decode_regModRm rfl rfl rfl _ _).trans (takeTail_imm32_bytesOf ..)
  case addMR | addRM | subMR | subRM | cmpRM | movMR | movRM | lea | pushM =>
    exact (decode_memBytes rfl rfl rfl hwf rest).trans (by simp [takeTail])
  case addMImm8 | subMImm8 | cmpMImm8 =>
    rw [encode, List.cons_append, List.cons_append, List.append_assoc]
    exact (decode_memBytes rfl rfl rfl hwf _).trans (takeTail_imm8_cons ..)
  case movMImm32 =>
    rw [encode, List.cons_append, List.cons_append, List.append_assoc]
    exact (decode_memBytes rfl rfl rfl hwf _).trans (takeTail_imm32_bytesOf ..)

/-- Settles O1: each word is the encoding of the instruction it stands for. -/
theorem specWordsDecode : Obligations.SpecWordsDecode := fun rest =>
  ⟨decodeOfEncode (.movRImm32 .eax 5) rest rfl, decodeOfEncode (.movRR .ebp .esp) rest rfl,
    decodeOfEncode (.movMR { sib := false, base := .ebp, disp := .d8 0xFC } .eax) rest rfl,
    decodeOfEncode (.lea .ecx { sib := true, base := .esp, disp := .d8 4 }) rest rfl,
    decodeOfEncode (.movRM .eax { sib := false, base := .ebp, disp := .d32 0x100 }) rest rfl,
    decodeOfEncode (.subRImm32 .esp 0x100) rest rfl,
    decodeOfEncode (.cmpMImm8 { sib := false, base := .ebp, disp := .d8 0xFC } 9) rest rfl,
    decodeOfEncode (.shrR .eax) rest rfl, decodeOfEncode (.popR .ebp) rest rfl,
    decodeOfEncode (.callRel32 5) rest rfl, decodeOfEncode (.jzRel32 1) rest rfl⟩

/-! ## The length formula -/

/-- The length of the immediate in 30_encoding.md R81, by the opcode. -/
def immediateLength (op : Byte) : Nat :=
  if op.toNat = 0x05 ∨ op.toNat = 0x2D ∨ op.toNat = 0xE8 ∨ (0xB8 ≤ op.toNat ∧ op.toNat ≤ 0xBF) ∨ op.toNat = 0x81 ∨
    op.toNat = 0xC7 ∨ op.toNat = 0x0F then 4
  else if op.toNat = 0x6A ∨ op.toNat = 0xEB ∨ op.toNat = 0x74 ∨ op.toNat = 0x75 ∨ op.toNat = 0x7E ∨ op.toNat = 0x7F ∨
    op.toNat = 0x83 then 1
  else 0

/-- The length of ModRM, SIB and displacement in 30_encoding.md R81, by the ModRM byte. -/
def addressingLength : List Byte → Nat
  | [] => 1
  | m :: _ =>
    1 + (if (modOf m = 1 ∨ modOf m = 2) ∧ rmOf m = 4 then 1 else 0) +
      (if modOf m = 1 then 1 else if modOf m = 2 then 4 else 0)

theorem specLength_of_hasModRm {op : Byte} (h : hasModRm op = true) (bs : List Byte) :
    specLength (op :: bs) = 1 + addressingLength bs + immediateLength op := by
  have hmem : op ∈ ([0x01, 0x03, 0x29, 0x2B, 0x31, 0x3B, 0x81, 0x83, 0x89, 0x8B, 0x8D, 0xC7, 0xD1, 0xFF] : List Byte) := by
    revert op; decide
  have hesc : op.toNat ≠ 0x0F := fun h0 => ne_escape_of_hasModRm h (BitVec.eq_of_toNat_eq h0)
  cases bs <;> simp only [specLength, if_pos hmem, if_neg hesc, Nat.zero_add] <;> rfl

theorem specLength_of_not_hasModRm {op : Byte} (h : hasModRm op = false) (bs : List Byte) :
    specLength (op :: bs) = (if op.toNat = 0x0F then 1 else 0) + 1 + immediateLength op := by
  have hmem : op ∉ ([0x01, 0x03, 0x29, 0x2B, 0x31, 0x3B, 0x81, 0x83, 0x89, 0x8B, 0x8D, 0xC7, 0xD1, 0xFF] : List Byte) := by
    revert op; decide
  simp only [specLength, if_neg hmem, Nat.add_zero]
  rfl

theorem rmOf_packByte (hi : BitVec 2) (mid lo : BitVec 3) : rmOf (packByte hi mid lo) = lo.toNat :=
  (field20_eq_iff ..).mp (field20_packByte hi mid lo)

theorem addressingLength_regModRm (rm : Reg) (n : BitVec 3) (bs : List Byte) :
    addressingLength (regModRm rm n :: bs) = 1 := by
  simp [addressingLength, regModRm, modOf_packByte]

theorem addressingLength_memBytes {a : MemOp} (ha : a.wf = true) (n : BitVec 3) (bs : List Byte) :
    addressingLength (a.bytes n ++ bs) = a.length := by
  obtain ⟨sib, base, d⟩ := a
  cases sib with
  | false =>
    have hbase : base.num.toNat ≠ 4 := fun h =>
      absurd (base.num_eq_four_iff.mp (BitVec.eq_of_toNat_eq h)) (by simpa [MemOp.wf] using ha)
    cases d <;> simp [MemOp.bytes, MemOp.length, addressingLength, modOf_packByte, rmOf_packByte, Disp.mode, hbase]
  | true => cases d <;> simp [MemOp.bytes, MemOp.length, addressingLength, modOf_packByte, rmOf_packByte, Disp.mode]

theorem specLength_regModRm {op : Byte} (h : hasModRm op = true) (rm : Reg) (n : BitVec 3) (bs : List Byte) :
    specLength (op :: regModRm rm n :: bs) = 2 + immediateLength op := by
  rw [specLength_of_hasModRm h, addressingLength_regModRm]

theorem specLength_memBytes {op : Byte} (h : hasModRm op = true) {a : MemOp} (ha : a.wf = true) (n : BitVec 3)
    (bs : List Byte) : specLength (op :: (a.bytes n ++ bs)) = 1 + a.length + immediateLength op := by
  rw [specLength_of_hasModRm h, addressingLength_memBytes ha]

/-- The formula finds the length of an instruction at the front of any bytes. -/
theorem specLength_encode_append : ∀ {i : Instr}, i.wf = true → ∀ bs, specLength (encode i ++ bs) = i.length := by
  intro i hwf bs
  cases i
  case pushR r | popR r | movRImm32 r _ => cases r <;> rfl
  case addRR | subRR | xorRR | movRR | shrR | addRImm8 | andRImm8 | subRImm8 | cmpRImm8 | addRImm32 | subRImm32 =>
    exact specLength_regModRm rfl _ _ _
  case addMR | addRM | subMR | subRM | cmpRM | movMR | movRM | lea | pushM => exact specLength_memBytes rfl hwf _ bs
  case addMImm8 | subMImm8 | cmpMImm8 | movMImm32 =>
    rw [encode, List.cons_append, List.cons_append, List.append_assoc]
    exact specLength_memBytes rfl hwf _ _
  all_goals exact specLength_of_not_hasModRm rfl _

/-- Settles O4: what was read is an encoding, of which the formula finds the length. -/
theorem decodedLengthIsTheFormula : Obligations.DecodedLengthIsTheFormula := by
  intro bs rest i h
  obtain ⟨hwf, rfl⟩ := encodeOfDecode bs rest i h
  rw [specLength_encode_append hwf, List.length_append, i.length_encode]
  exact ⟨rfl, i.length_pos, i.length_le⟩

/-! ## Rows and modes -/

theorem hasModRm_of_hasRegRow {op : Byte} {n : Nat} (h : hasRegRow op n) : hasModRm op = true := by
  simp only [hasRegRow, List.mem_cons, List.not_mem_nil, or_false] at h
  rcases h with h | ⟨rfl, -⟩ | ⟨rfl, -⟩ | ⟨rfl, -⟩
  · rcases h with rfl | rfl | rfl | rfl <;> rfl
  all_goals rfl

/-- The "reg" rows of 30_encoding.md R97 are in the decoder's table. -/
theorem modRmRows_of_hasRegRow {op : Byte} {n : BitVec 3} (h : hasRegRow op n.toNat) :
    ∃ rows, modRmRows op n = some rows := by
  simp only [hasRegRow, List.mem_cons, List.not_mem_nil, or_false] at h
  rcases h with h | ⟨rfl, h | h⟩ | ⟨rfl, h | h | h | h⟩ | ⟨rfl, h⟩
  · rcases h with rfl | rfl | rfl | rfl <;> exact ⟨_, rfl⟩
  all_goals simp [modRmRows, h]

/-- The decoder's table has no other rows, and no empty ones. -/
theorem hasRow_of_modRmRows {op : Byte} {n : BitVec 3} {rows : Rows} (h : modRmRows op n = some rows) :
    (rows.reg ≠ none → hasRegRow op n.toNat) ∧ (rows.mem ≠ none → hasMemRow op n.toNat) ∧
      (rows.reg ≠ none ∨ rows.mem ≠ none) := by
  unfold modRmRows at h
  split at h
  case h_19 => cases h
  all_goals
    obtain rfl := eq_ofNat_of_toNat_eq ‹op.toNat = _›
    cases h
    simp [hasRegRow, hasMemRow, *]

/-- Settles O8: with no row, the ModRM byte is the last that is read. -/
theorem unsupportedSubOpcodesFault : Obligations.UnsupportedSubOpcodesFault := by
  intro op m rest hop hreg hmem
  have hmod : hasModRm op = true := by
    clear hreg hmem
    revert op; decide
  have hrows : modRmRows op (field53 m) = none := by
    refine Option.eq_none_iff_forall_ne_some.mpr fun rows h => ?_
    obtain ⟨hr, hm, hne⟩ := hasRow_of_modRmRows h
    rw [field53_toNat] at hr hm
    exact hne.elim (hreg ∘ hr) (hmem ∘ hm)
  rw [decode_modRm hmod, take8_cons]
  simp [decodeModRm, hrows]

/-- Settles O9: the mode is checked against the rows before anything behind the ModRM byte is read. -/
theorem unadmittedModesFault : Obligations.UnadmittedModesFault := by
  intro op m rest hrow hmode
  have hmod : hasModRm op = true := hrow.elim hasModRm_of_hasRegRow hasModRm_of_hasMemRow
  obtain ⟨rows, hrows⟩ : ∃ rows, modRmRows op (field53 m) = some rows := by
    rw [← field53_toNat] at hrow
    exact hrow.elim modRmRows_of_hasRegRow fun h => (modRmRows_of_hasMemRow h).imp fun _ h => h.choose_spec.1
  obtain ⟨hreg, hmem, -⟩ := hasRow_of_modRmRows hrows
  rw [field53_toNat] at hreg hmem
  rw [decode_modRm hmod, take8_cons, decodeModRm, hrows]
  rcases hmode with h | ⟨h | h, hnone⟩ | ⟨h, hnone⟩
  · simp [field76_toNat, h]
  · simp [field76_toNat, h, not_not.mp (mt hmem hnone)]
  · simp [field76_toNat, h, not_not.mp (mt hmem hnone)]
  · simp [field76_toNat, h, not_not.mp (mt hreg hnone)]

end Sys2Proof

/-! Fetching and the step (20_memory.md R56, R67; 41_dispatch.md R160 to R166): the fetched window is the bytes that stand
at the pc as far as Memory goes, and the step runs what it decodes to, or takes the fault of its rejection. -/

namespace Sys2Proof

open Sys2Proof.Machine Sys2Proof.Claims

/-! ## Bytes that stand in Memory -/

/-- The bytes `bs` stand in Memory from `a` on, inside Memory, addresses modulo 2^32; at the pc this is `bytesAtPc`. -/
def StandsAt (s : State) (a : Word) (bs : List Byte) : Prop :=
  ∀ k (h : k < bs.length), (a + BitVec.ofNat 32 k).toNat < s.cfg.memSize ∧ s.byteAt (a + BitVec.ofNat 32 k).toNat = bs[k]

theorem add_one_add_ofNat (a : Word) (k : Nat) : a + 1 + BitVec.ofNat 32 k = a + BitVec.ofNat 32 (k + 1) := by
  rw [Nat.add_comm, BitVec.ofNat_add, BitVec.add_assoc]
  rfl

theorem standsAt_nil (s : State) (a : Word) : StandsAt s a [] := fun _ h => absurd h (Nat.not_lt_zero _)

theorem standsAt_cons {s : State} {a : Word} {b : Byte} {bs : List Byte} :
    StandsAt s a (b :: bs) ↔ (a.toNat < s.cfg.memSize ∧ s.byteAt a.toNat = b) ∧ StandsAt s (a + 1) bs := by
  constructor
  · intro h
    refine ⟨by simpa using h 0 (Nat.zero_lt_succ _), fun k hk => ?_⟩
    rw [add_one_add_ofNat]
    exact h (k + 1) (Nat.succ_lt_succ hk)
  · rintro ⟨hb, hbs⟩ k hk
    cases k with
    | zero => simpa using hb
    | succ k =>
      rw [← add_one_add_ofNat]
      exact hbs k (Nat.lt_of_succ_lt_succ hk)

theorem Machine.State.memRead8_error {s : State} {a : Word} (h : s.cfg.memSize ≤ a.toNat) :
    s.memRead8 a = .error (.outOfBounds a 1) :=
  if_neg (mt (State.inBounds_iff ..).1 (by omega))

theorem Machine.State.bytesFrom_succ_of_lt {s : State} {a : Word} (h : a.toNat < s.cfg.memSize) (n : Nat) :
    s.bytesFrom (n + 1) a = s.byteAt a.toNat :: s.bytesFrom n (a + 1) := by
  rw [State.bytesFrom, State.memRead8_ok h]

/-- Fetching ends before the byte that is out of bounds. -/
theorem Machine.State.bytesFrom_of_le {s : State} {a : Word} (h : s.cfg.memSize ≤ a.toNat) :
    ∀ n, s.bytesFrom n a = []
  | 0 => rfl
  | n + 1 => by rw [State.bytesFrom, State.memRead8_error h]

theorem length_bytesFrom_le (s : State) : ∀ n a, (s.bytesFrom n a).length ≤ n
  | 0, _ => Nat.le_refl 0
  | n + 1, a => by
    by_cases h : a.toNat < s.cfg.memSize
    · rw [State.bytesFrom_succ_of_lt h]
      exact Nat.succ_le_succ (length_bytesFrom_le s n (a + 1))
    · simp [State.bytesFrom_of_le (Nat.le_of_not_lt h)]

/-- What is fetched stands in Memory. -/
theorem standsAt_bytesFrom (s : State) : ∀ n a, StandsAt s a (s.bytesFrom n a)
  | 0, a => standsAt_nil s a
  | n + 1, a => by
    by_cases h : a.toNat < s.cfg.memSize
    · rw [State.bytesFrom_succ_of_lt h, standsAt_cons]
      exact ⟨⟨h, rfl⟩, standsAt_bytesFrom s n (a + 1)⟩
    · rw [State.bytesFrom_of_le (Nat.le_of_not_lt h)]
      exact standsAt_nil s a

/-- A fetch of fewer bytes than were asked for ended at the end of Memory. -/
theorem memSize_le_of_length_bytesFrom_lt (s : State) :
    ∀ n a, (s.bytesFrom n a).length < n → s.cfg.memSize ≤ (a + BitVec.ofNat 32 (s.bytesFrom n a).length).toNat
  | 0, _, hlen => absurd hlen (Nat.not_lt_zero _)
  | n + 1, a, hlen => by
    by_cases h : a.toNat < s.cfg.memSize
    · rw [State.bytesFrom_succ_of_lt h] at hlen ⊢
      rw [List.length_cons, ← add_one_add_ofNat]
      exact memSize_le_of_length_bytesFrom_lt s n (a + 1) (Nat.lt_of_succ_lt_succ hlen)
    · rw [State.bytesFrom_of_le (Nat.le_of_not_lt h)]
      simpa using h

/-- What stands in Memory is fetched, and then what follows it. -/
theorem bytesFrom_of_standsAt {s : State} (n : Nat) : ∀ {bs : List Byte} {a : Word}, StandsAt s a bs →
    s.bytesFrom (bs.length + n) a = bs ++ s.bytesFrom n (a + BitVec.ofNat 32 bs.length)
  | [], a, _ => by simp
  | b :: bs, a, h => by
    obtain ⟨⟨ha, rfl⟩, hbs⟩ := standsAt_cons.mp h
    rw [List.length_cons, Nat.succ_add, State.bytesFrom_succ_of_lt ha, bytesFrom_of_standsAt n hbs, add_one_add_ofNat]
    rfl

/-! ## The fetched window -/

theorem fetchWindow_of_bytesAtPc {s : State} {bs : List Byte} (h : bytesAtPc s bs) (hlen : bs.length ≤ maxInstrLength) :
    s.fetchWindow = bs ++ s.bytesFrom (maxInstrLength - bs.length) (s.pc + BitVec.ofNat 32 bs.length) := by
  rw [State.fetchWindow, ← bytesFrom_of_standsAt _ h, Nat.add_sub_cancel' hlen]

theorem bytesAtPc_fetchWindow (s : State) : bytesAtPc s s.fetchWindow := standsAt_bytesFrom s _ _

theorem bytesAtPc_of_isPrefix {s : State} {e bs : List Byte} (h : e <+: bs) (hbs : bytesAtPc s bs) : bytesAtPc s e := by
  intro k hk
  rw [h.getElem hk]
  exact hbs k (hk.trans_le h.length_le)

theorem length_fetchWindow_le (s : State) : s.fetchWindow.length ≤ maxInstrLength := length_bytesFrom_le s _ _

/-! ## The step -/

theorem step_of_decode_eq_reject {s : State} {e : DecodeError} (hrun : s.status = .running)
    (hdec : decode s.fetchWindow = .reject e) : step s = .next (s.raiseDecode e) := by
  simp only [step, hrun, hdec]

/-- Everything the step of a running core can do. -/
theorem step_running (s : State) (hrun : s.status = .running) :
    (∃ i rest, decode s.fetchWindow = .instr i rest ∧ step s = exec i s) ∨
      ∃ e, decode s.fetchWindow = .reject e ∧ step s = .next (s.raiseDecode e) := by
  cases h : decode s.fetchWindow with
  | instr i rest => exact .inl ⟨i, rest, rfl, step_of_decode_eq_instr hrun h⟩
  | reject e => exact .inr ⟨e, rfl, step_of_decode_eq_reject hrun h⟩

theorem step_terminal {s : State} (h : s.status ≠ .running) : ∃ f, step s = .fault f := by
  unfold step
  split
  · exact absurd ‹_› h
  · exact ⟨_, rfl⟩
  · exact ⟨_, rfl⟩

theorem status_of_step_next {s t : State} (h : step s = .next t) : s.status = .running := by
  by_contra hne
  obtain ⟨f, hf⟩ := step_terminal hne
  cases hf.symm.trans h

theorem exists_next_of_exec (i : Instr) (s : State) : ∃ t, exec i s = .next t := by
  obtain ⟨-, -, ⟨t, -, h⟩ | ⟨c, -, h⟩⟩ := exec_cases i s
  · exact ⟨t, h⟩
  · exact ⟨_, h⟩

/-- Settles O12. The equation for a decoded window is the step's own. -/
theorem stepRunsDecodedInstruction : Obligations.StepRunsDecodedInstruction := fun _ _ _ => step_of_decode_eq_instr

/-- Settles O15: both an instruction and a rejection end in a next state. -/
theorem runningCoreAlwaysSteps : Obligations.RunningCoreAlwaysSteps := by
  intro s hrun
  obtain ⟨i, -, -, h⟩ | ⟨e, -, h⟩ := step_running s hrun
  · exact h ▸ exists_next_of_exec i s
  · exact ⟨_, h⟩

/-- Settles O16: the named stop is no next state, so no number of steps moves the state. -/
theorem terminalStatusHasNoStep : Obligations.TerminalStatusHasNoStep := by
  intro s hs
  obtain ⟨f, hf⟩ := step_terminal hs
  refine ⟨fun t h => (by cases hf.symm.trans h), fun n => ?_⟩
  cases n with
  | zero => rfl
  | succ n => rw [State.after, hf]

/-- Settles O13: the window starts with the instruction's bytes, and decoding looks at no others. -/
theorem stepRunsInstructionInMemory : Obligations.StepRunsInstructionInMemory := by
  intro s i hrun hwf hbytes
  have hwindow := fetchWindow_of_bytesAtPc hbytes (i.length_encode ▸ i.length_le)
  exact step_of_decode_eq_instr hrun (hwindow ▸ decodeOfEncode i _ hwf)

/-- A proper part of an encoding, from its start on, is no encoding and no rejected bytes: it ends too early. -/
theorem decode_take_encode {i : Instr} (hwf : i.wf = true) {n : Nat} (hn : n < (encode i).length) :
    decode ((encode i).take n) = .reject (.truncated ((encode i).take n)) := by
  have hwhole : decode ((encode i).take n ++ (encode i).drop n) = .instr i [] := by
    simpa using decodeOfEncode i [] hwf
  have hread := decode_readFrom ((encode i).take n)
  cases h : decode ((encode i).take n) with
  | instr j rest =>
    rw [decode_append_of_instr h] at hwhole
    have hdrop : rest ++ (encode i).drop n = [] := by injection hwhole
    have := List.drop_eq_nil_iff.mp (List.append_eq_nil_iff.mp hdrop).2
    omega
  | reject e =>
    cases e with
    | unsupportedOpcode e => cases (decode_append_of_unsupportedOpcode h _).symm.trans hwhole
    | unsupportedAddressingMode e => cases (decode_append_of_unsupportedAddressingMode h _).symm.trans hwhole
    | truncated e =>
      rw [h] at hread
      rw [hread.1]

/-- Settles O14: the window is the bytes before the end of Memory, which end too early. -/
theorem fetchOutOfBoundsFaults : Obligations.FetchOutOfBoundsFaults := by
  intro s i n hrun hwf hn hbytes hout
  have hlen : ((encode i).take n).length = n := List.length_take_of_le hn.le
  have hwindow : s.fetchWindow = (encode i).take n := by
    have hmax := i.length_encode ▸ i.length_le
    rw [fetchWindow_of_bytesAtPc hbytes (by omega), hlen, State.bytesFrom_of_le hout, List.append_nil]
  have hdec := decode_take_encode hwf hn
  rw [← hwindow] at hdec
  refine (step_of_decode_eq_reject hrun hdec).trans ?_
  rw [State.raiseDecode, hwindow, hlen]
  rfl

/-- Bytes that stand at the pc and are rejected whatever follows them are rejected by the step. -/
theorem step_of_bytesAtPc_rejected {s : State} {bs : List Byte} {e : DecodeError} (hrun : s.status = .running)
    (hbytes : bytesAtPc s bs) (hlen : bs.length ≤ 3) (h : ∀ x, decode (bs ++ x) = .reject e) :
    step s = .next (s.raiseDecode e) := by
  have hmax : bs.length ≤ maxInstrLength := hlen.trans (by decide)
  exact step_of_decode_eq_reject hrun (fetchWindow_of_bytesAtPc hbytes hmax ▸ h _)

/-- Settles O6: fetched or standing in Memory, rejected bytes are rejected whatever follows them. -/
theorem unsupportedPrimaryOpcodesFault : Obligations.UnsupportedPrimaryOpcodesFault := by
  intro s e op hrun
  refine ⟨step_of_decode_eq_reject hrun, step_of_decode_eq_reject hrun, step_of_decode_eq_reject hrun,
    fun hbytes h => ?_, fun hbytes h => ?_, fun hop hpc hbyte => ?_⟩
  · have hlen := ((rejectionsNameTheirBytes e e).1 h).2
    exact step_of_bytesAtPc_rejected hrun hbytes (by omega) (decode_append_of_unsupportedOpcode h)
  · have hlen := ((rejectionsNameTheirBytes e e).2.1 h).2
    exact step_of_bytesAtPc_rejected hrun hbytes (by omega) (decode_append_of_unsupportedAddressingMode h)
  · have hbytes : bytesAtPc s [op] := standsAt_cons.mpr ⟨⟨hpc, hbyte⟩, standsAt_nil s _⟩
    exact step_of_bytesAtPc_rejected hrun hbytes (by simp) fun x => (unsupportedPrimaryOpcodesAreRejected op x).mp hop

end Sys2Proof

/-! What an instruction does, said once (41_dispatch.md R163): which fault it raises, if any, and else its next state, field
by field. `exec_eq` ties this to the meanings; the statements about instructions are then about one field each. -/

namespace Sys2Proof

open Sys2Proof.Machine Sys2Proof.Claims

/-! ## The u32 at an address -/

/-- The u32 at an address, as a word. -/
def wordAt (s : State) (a : Nat) : Word := BitVec.ofNat 32 (wordNat s a)

theorem wordNat_lt (s : State) (a : Nat) : wordNat s a < 2 ^ 32 := by
  have h0 := (s.byteAt a).isLt
  have h1 := (s.byteAt (a + 1)).isLt
  have h2 := (s.byteAt (a + 2)).isLt
  have h3 := (s.byteAt (a + 3)).isLt
  unfold wordNat
  omega

@[simp] theorem wordAt_toNat (s : State) (a : Nat) : (wordAt s a).toNat = wordNat s a := by
  rw [wordAt, BitVec.toNat_ofNat, Nat.mod_eq_of_lt (wordNat_lt s a)]

theorem wordOf_byteAt (s : State) (a : Nat) :
    wordOf (s.byteAt a) (s.byteAt (a + 1)) (s.byteAt (a + 2)) (s.byteAt (a + 3)) = wordAt s a := by
  apply BitVec.eq_of_toNat_eq
  rw [wordOf_toNat, wordAt_toNat, wordNat]

theorem wordAt_eq_zero_iff (s : State) (a : Nat) : wordAt s a = 0 ↔ wordNat s a = 0 := by
  rw [← BitVec.toNat_inj, wordAt_toNat]
  rfl

theorem bytesOf_wordAt (s : State) (a : Nat) :
    bytesOf (wordAt s a) = [s.byteAt a, s.byteAt (a + 1), s.byteAt (a + 2), s.byteAt (a + 3)] := by
  rw [← wordOf_byteAt, bytesOf_wordOf]

/-- A stored word is read back. -/
theorem wordAt_setWord {s : State} (h : s.mem.wf = true) (a : Nat) (v : Word) : wordAt (s.setWord a v) a = v := by
  have hbyte {k : Nat} (hk : k < 4) := State.byteAt_setWord_same h a v hk
  have h0 : (s.setWord a v).byteAt a = byteOf v 0 := hbyte (k := 0) (by decide)
  rw [← wordOf_byteAt, h0, hbyte (by decide), hbyte (by decide), hbyte (by decide), wordOf_byteOf]

/-! ## Answers of the operations -/

/-- The answer of an operation that raises `c`, if there is one, and else gives `a`. -/
def answer {α : Type} (c : Option FaultCause) (a : α) : Attempt α := c.elim (.ok a) .error

/-- In a sequence the fault of the earlier part counts, and else that of the later part. -/
theorem answer_bind {α β : Type} {c d : Option FaultCause} {a : α} {b : β} {f : α → Attempt β} (h : f a = answer d b) :
    (answer c a >>= f) = answer (c.or d) b := by
  cases c with
  | none => exact h
  | some c => rfl

theorem answer_bind_ok {α β : Type} (c : Option FaultCause) (a : α) (f : α → β) :
    (answer c a >>= fun x => .ok (f x)) = answer c (f a) := by
  cases c <;> rfl

/-- The fault of a 4-byte access at `a` (20_memory.md R56). -/
def slotFault (s : State) (a : Word) : Option FaultCause :=
  if a.toNat + 4 ≤ s.cfg.memSize then none else some (.outOfBounds a 4)

/-- The fault of computing the address of a memory operand (30_encoding.md R94). -/
def addressFault (s : State) (m : MemOp) : Option FaultCause :=
  if eaOk s m then none else some (.outOfBounds (s.addrOf m) 4)

/-- The fault of an access of a memory operand: that of its address, and then that of the access. -/
def operandFault (s : State) (m : MemOp) : Option FaultCause := (addressFault s m).or (slotFault s (s.addrOf m))

theorem memRead32_eq_answer (s : State) (a : Word) : s.memRead32 a = answer (slotFault s a) (wordAt s a.toNat) := by
  unfold slotFault
  split
  · next h => rw [State.memRead32_ok h, wordOf_byteAt]; rfl
  · next h => exact State.memRead32_error h

theorem memWrite32_eq_answer (s : State) (a v : Word) : s.memWrite32 a v = answer (slotFault s a) (s.setWord a.toNat v) := by
  unfold slotFault
  split
  · next h => exact State.memWrite32_ok h v
  · next h => exact State.memWrite32_error h v

theorem push_eq_answer (s : State) (v : Word) : s.push v =
    answer (slotFault s (s.reg .esp - 4)) ((s.setWord (s.reg .esp - 4).toNat v).setReg .esp (s.reg .esp - 4)) := by
  rw [State.push, memWrite32_eq_answer]
  exact answer_bind_ok ..

theorem pop_eq_answer (s : State) : s.pop =
    answer (slotFault s (s.reg .esp)) (wordAt s (s.reg .esp).toNat, s.setReg .esp (s.reg .esp + 4)) := by
  rw [State.pop, memRead32_eq_answer]
  exact answer_bind_ok ..

theorem dispWord_eq_dispValue (d : Disp) : dispWord d = dispValue d := by
  cases d with
  | d8 b => exact sext8_eq_sext b
  | d32 w => rfl

theorem eaOk_iff (s : State) (m : MemOp) :
    eaOk s m ↔ ¬ (s.cfg.eaOverflow = .fault ∧ addrOverflows (s.reg m.base) (dispWord m.disp) = true) := by
  rw [dispWord_eq_dispValue, addrOverflows, addrExact, Bool.or_eq_true, decide_eq_true_eq, decide_eq_true_eq]
  unfold eaOk
  cases s.cfg.eaOverflow <;> simp

theorem ea_eq_answer (s : State) (m : MemOp) : s.ea m = answer (addressFault s m) (s.addrOf m) := by
  unfold addressFault
  obtain ⟨h, e⟩ | ⟨h, e⟩ := State.ea_cases s m
  · rw [if_pos ((eaOk_iff s m).mpr h)]
    exact e
  · rw [if_neg (mt (eaOk_iff s m).mp (not_not.mpr h))]
    exact e

/-! ## Bodies that several meanings share -/

theorem loadTo_eq_answer (r : Reg) (m : MemOp) (f : Word → State → Word) (w : State) :
    loadTo r m f w = answer (operandFault w m) (w.setReg r (f (wordAt w (w.addrOf m).toNat) w)) := by
  rw [loadTo, ea_eq_answer]
  refine answer_bind ?_
  rw [memRead32_eq_answer]
  exact answer_bind_ok ..

theorem storeTo_eq_answer (m : MemOp) (v : State → Word) (w : State) :
    storeTo m v w = answer (operandFault w m) (w.setWord (w.addrOf m).toNat (v w)) := by
  rw [storeTo, ea_eq_answer]
  exact answer_bind (memWrite32_eq_answer ..)

/-- The read and the write check the same bounds. -/
theorem updateMem_eq_answer (m : MemOp) (f : Word → State → Word) (w : State) : updateMem m f w =
    answer (operandFault w m) (w.setWord (w.addrOf m).toNat (f (wordAt w (w.addrOf m).toNat) w)) := by
  rw [updateMem, ea_eq_answer]
  refine answer_bind ?_
  have h := answer_bind (c := slotFault w (w.addrOf m)) (f := fun t => w.memWrite32 (w.addrOf m) (f t w))
    (memWrite32_eq_answer w (w.addrOf m) (f (wordAt w (w.addrOf m).toNat) w))
  rwa [Option.or_self, ← memRead32_eq_answer] at h

/-- Reading the memory operand and then going on with its value. -/
theorem readOperand_eq_answer {w t : State} {m : MemOp} {f : Word → Attempt State} {c : Option FaultCause}
    (h : f (wordAt w (w.addrOf m).toNat) = answer c t) :
    (w.ea m >>= fun a => w.memRead32 a >>= f) = answer ((operandFault w m).or c) t := by
  rw [ea_eq_answer, operandFault, Option.or_assoc]
  refine answer_bind ?_
  rw [memRead32_eq_answer]
  exact answer_bind h

/-! ## The effect of an instruction -/

/-- LEA computes an address and accesses nothing (42_data_movement.md R197). -/
def isLea : Instr → Bool
  | .lea _ _ => true
  | _ => false

/-- The stack slot an instruction accesses (42_data_movement.md R190, R191). -/
def stackSlot (s : State) : Instr → Option Word
  | .pushR _ => some (s.reg .esp - 4)
  | .pushImm8 _ => some (s.reg .esp - 4)
  | .pushM _ => some (s.reg .esp - 4)
  | .callRel32 _ => some (s.reg .esp - 4)
  | .popR _ => some (s.reg .esp)
  | .ret => some (s.reg .esp)
  | _ => none

/-- The fault an instruction raises behind its fetch, if any: that of its memory operand, and then that of its stack slot
(60_exceptions.md R265, R267). -/
def raised (s : State) (i : Instr) : Option FaultCause :=
  (i.memOp?.bind fun m => if isLea i then addressFault s m else operandFault s m).or ((stackSlot s i).bind (slotFault s))

/-- The register writes of an instruction, in order, with the words from the state before it (10_state.md R23). -/
def regWrites (s : State) : Instr → List (Reg × Word)
  | .addRR rm reg => [(rm, s.reg rm + s.reg reg)]
  | .addRM reg m => [(reg, s.reg reg + wordAt s (s.addrOf m).toNat)]
  | .addEaxImm32 imm => [(.eax, s.reg .eax + imm)]
  | .addRImm32 rm imm => [(rm, s.reg rm + imm)]
  | .addRImm8 rm imm => [(rm, s.reg rm + sext imm)]
  | .subRR rm reg => [(rm, s.reg rm - s.reg reg)]
  | .subRM reg m => [(reg, s.reg reg - wordAt s (s.addrOf m).toNat)]
  | .subEaxImm32 imm => [(.eax, s.reg .eax - imm)]
  | .subRImm32 rm imm => [(rm, s.reg rm - imm)]
  | .subRImm8 rm imm => [(rm, s.reg rm - sext imm)]
  | .andRImm8 rm imm => [(rm, s.reg rm &&& sext imm)]
  | .xorRR rm reg => [(rm, s.reg rm ^^^ s.reg reg)]
  | .shrR rm => [(rm, s.reg rm >>> 1)]
  | .movRR rm reg => [(rm, s.reg reg)]
  | .movRM reg m => [(reg, wordAt s (s.addrOf m).toNat)]
  | .movRImm32 r imm => [(r, imm)]
  | .lea reg m => [(reg, s.addrOf m)]
  | .pushR _ => [(.esp, s.reg .esp - 4)]
  | .pushImm8 _ => [(.esp, s.reg .esp - 4)]
  | .pushM _ => [(.esp, s.reg .esp - 4)]
  | .callRel32 _ => [(.esp, s.reg .esp - 4)]
  | .popR r => [(.esp, s.reg .esp + 4), (r, wordAt s (s.reg .esp).toNat)]
  | .ret => [(.esp, s.reg .esp + 4)]
  | _ => []

/-- The registers after an instruction that raises nothing. -/
def newRegs (s : State) (i : Instr) : Regs := (regWrites s i).foldl (fun rs w => rs.set w.1 w.2) s.regs

/-- The pc after an instruction that raises nothing, `next` being the address behind it (44_control_transfer.md). -/
def newPc (s : State) (next : Word) : Instr → Word
  | .callRel32 rel => next + rel
  | .ret => if wordAt s (s.reg .esp).toNat = 0 then next else wordAt s (s.reg .esp).toNat
  | .jmpRel8 rel => next + sext rel
  | .jzRel8 rel => if s.flags.zf then next + sext rel else next
  | .jnzRel8 rel => if !s.flags.zf then next + sext rel else next
  | .jgRel8 rel => if !s.flags.zf && s.flags.sf == s.flags.of then next + sext rel else next
  | .jngRel8 rel => if s.flags.zf || s.flags.sf != s.flags.of then next + sext rel else next
  | .jzRel32 rel => if s.flags.zf then next + rel else next
  | .jnzRel32 rel => if !s.flags.zf then next + rel else next
  | _ => next

/-- The flags after an instruction that raises nothing (40_alu_flags.md R143). -/
def newFlags (s : State) : Instr → Flags
  | .cmpRM reg m => cmpFlags (s.reg reg) (wordAt s (s.addrOf m).toNat)
  | .cmpRImm8 rm imm => cmpFlags (s.reg rm) (sext imm)
  | .cmpMImm8 m imm => cmpFlags (wordAt s (s.addrOf m).toNat) (sext imm)
  | _ => s.flags

/-- Memory after an instruction that raises nothing: the word that it stores is at the address it stores to. -/
def newMem (s : State) (i : Instr) : Memory :=
  match writesMem s i, storedWord s i with
  | some a, some v => (s.setWord a.toNat v).mem
  | _, _ => s.mem

/-- The status after an instruction that raises nothing (44_control_transfer.md R241). -/
def newStatus (s : State) : Instr → Status
  | .ret => if wordAt s (s.reg .esp).toNat = 0 then .halted else s.status
  | _ => s.status

/-- The state after an instruction that raises nothing. -/
def completed (s : State) (i : Instr) : State :=
  { regs := newRegs s i, pc := newPc s (nextPc i s) i, flags := newFlags s i, mem := newMem s i, status := newStatus s i,
    cfg := s.cfg }

/-- The state after an instruction. -/
def afterInstr (s : State) (i : Instr) : State :=
  (raised s i).elim (completed s i) fun c => s.raise c (encode i)

/-! ## The meanings have this effect -/

/-- It is enough that the body has the effect, run with the pc behind the instruction. -/
theorem complete_eq_afterInstr {i : Instr} {s : State} {body : State → Attempt State}
    (h : body (s.setPc (nextPc i s)) = answer (raised s i) (completed s i)) : complete i s body = .next (afterInstr s i) := by
  have hpc : s.setPc (nextPc i s) = s.advance i.length := by rw [State.advance, nextPc, i.length_encode]
  rw [hpc] at h
  unfold afterInstr
  cases hc : raised s i with
  | none =>
    rw [hc] at h
    exact complete_ok h
  | some c =>
    rw [hc] at h
    exact complete_error h

theorem raised_eq_operandFault {s : State} {i : Instr} {m : MemOp} (hm : i.memOp? = some m) (hlea : isLea i = false)
    (hslot : stackSlot s i = none) : raised s i = operandFault s m := by
  simp [raised, hm, hlea, hslot]

theorem raised_eq_addressFault (s : State) (r : Reg) (m : MemOp) : raised s (.lea r m) = addressFault s m := Option.or_none

theorem raised_eq_slotFault {s : State} {i : Instr} {a : Word} (hm : i.memOp? = none) (hslot : stackSlot s i = some a) :
    raised s i = slotFault s a := by
  simp [raised, hm, hslot]

theorem pushImmOperand_eq (cfg : Config) (imm : Byte) :
    pushImmOperand cfg imm = if cfg.pushImm8Ext = .sign then sext imm else BitVec.ofNat 32 imm.toNat := by
  unfold pushImmOperand
  split
  · next h =>
    rw [h, if_neg (by decide), BitVec.ofNat_toNat]
    rfl
  · next h => rw [if_pos h, sext8_eq_sext]

/-- The popped word decides how the run goes on. -/
theorem completed_ret (s : State) : completed s .ret =
    if wordAt s (s.reg .esp).toNat = 0 then ((s.setPc (nextPc .ret s)).setReg .esp (s.reg .esp + 4)).setStatus .halted
    else (s.setReg .esp (s.reg .esp + 4)).setPc (wordAt s (s.reg .esp).toNat) := by
  have hpc : newPc s (nextPc .ret s) .ret =
    if wordAt s (s.reg .esp).toNat = 0 then nextPc .ret s else wordAt s (s.reg .esp).toNat := rfl
  have hstatus : newStatus s .ret = if wordAt s (s.reg .esp).toNat = 0 then .halted else s.status := rfl
  split
  · next h =>
    rw [if_pos h] at hpc hstatus
    rw [completed, hpc, hstatus]
    rfl
  · next h =>
    rw [if_neg h] at hpc hstatus
    rw [completed, hpc, hstatus]
    rfl

theorem jumpIf_eq (c : Cond) (d : Word) (w : State) :
    jumpIf c d w = .ok (w.setPc (if c.holds w.flags then w.pc + d else w.pc)) := by
  unfold jumpIf
  split <;> rfl

/-- The condition of JNG, as 40_alu_flags.md R144 writes it. -/
theorem holds_ng (f : Flags) : Cond.ng.holds f = (f.zf || f.sf != f.of) := by
  simp [Cond.holds, bne]

/-- Everything `exec` can answer, for every instruction: grouped by the shape of the body. -/
theorem exec_eq (i : Instr) (s : State) : exec i s = .next (afterInstr s i) := by
  cases i
  all_goals rw [exec]; refine complete_eq_afterInstr ?_
  case addRR | addEaxImm32 | addRImm32 | subRR | subEaxImm32 | subRImm32 | xorRR | shrR | movRR | movRImm32 | nop => rfl
  case addRImm8 | subRImm8 | andRImm8 | jmpRel8 => simp only [sext8_eq_sext]; rfl
  case cmpRImm8 => simp only [compareFlags.2]; rfl
  case addRM | subRM | movRM =>
    rw [raised_eq_operandFault rfl rfl rfl]
    exact loadTo_eq_answer ..
  case movMR | movMImm32 =>
    rw [raised_eq_operandFault rfl rfl rfl]
    exact storeTo_eq_answer ..
  case addMR | subMR =>
    rw [raised_eq_operandFault rfl rfl rfl]
    exact updateMem_eq_answer ..
  case addMImm8 | subMImm8 =>
    rw [raised_eq_operandFault rfl rfl rfl]
    simp only [sext8_eq_sext]
    exact updateMem_eq_answer ..
  case cmpRM =>
    simp only [compareFlags.1]
    exact readOperand_eq_answer (c := none) rfl
  case cmpMImm8 =>
    simp only [compareFlags.2]
    exact readOperand_eq_answer (c := none) rfl
  case lea =>
    rw [ea_eq_answer, raised_eq_addressFault]
    exact answer_bind_ok ..
  case pushR =>
    rw [raised_eq_slotFault rfl rfl]
    exact push_eq_answer ..
  case pushImm8 =>
    rw [raised_eq_slotFault rfl rfl]
    simp only [pushImmOperand_eq]
    exact push_eq_answer ..
  case pushM =>
    exact readOperand_eq_answer (push_eq_answer ..)
  case popR =>
    rw [raised_eq_slotFault rfl rfl, pop_eq_answer]
    exact answer_bind_ok ..
  case ret =>
    rw [raised_eq_slotFault rfl rfl, pop_eq_answer, completed_ret]
    exact answer_bind_ok ..
  case callRel32 =>
    rw [raised_eq_slotFault rfl rfl, push_eq_answer]
    exact answer_bind_ok ..
  case jzRel8 | jnzRel8 | jgRel8 | jngRel8 =>
    simp only [jumpIf_eq, sext8_eq_sext, holds_ng]; rfl
  case jzRel32 | jnzRel32 =>
    simp only [jumpIf_eq]; rfl

end Sys2Proof

/-! The two outcomes of an instruction: which faults it can raise, and the fields of its completed state. Each statement
about instructions is about one of these. -/

namespace Sys2Proof

open Sys2Proof.Machine Sys2Proof.Claims

/-! ## The two outcomes -/

section Outcomes

variable {i : Instr} {s t : State}

theorem exec_of_raised_none (h : raised s i = none) : exec i s = .next (completed s i) := by
  rw [exec_eq, afterInstr, h]
  rfl

theorem exec_of_raised_some {c : FaultCause} (h : raised s i = some c) : exec i s = .next (faulted s c (encode i)) := by
  rw [exec_eq, afterInstr, h]
  rfl

/-- Everything a next state of `exec` can be. -/
theorem exec_next_cases (h : exec i s = .next t) :
    (raised s i = none ∧ t = completed s i) ∨ ∃ c, raised s i = some c ∧ t = faulted s c (encode i) := by
  cases hr : raised s i with
  | none => exact .inl ⟨rfl, by simpa [exec_of_raised_none hr] using h.symm⟩
  | some c => exact .inr ⟨c, rfl, by simpa [exec_of_raised_some hr] using h.symm⟩

theorem exec_next_running (hrun : t.status = .running) (h : exec i s = .next t) :
    raised s i = none ∧ t = completed s i := by
  obtain h | ⟨c, -, rfl⟩ := exec_next_cases h
  · exact h
  · cases hrun

end Outcomes

/-! ## Which faults are raised -/

theorem slotFault_eq_none_iff {s : State} {a : Word} : slotFault s a = none ↔ a.toNat + 4 ≤ s.cfg.memSize := by
  simp [slotFault]

theorem slotFault_of_not {s : State} {a : Word} (h : ¬ a.toNat + 4 ≤ s.cfg.memSize) :
    slotFault s a = some (.outOfBounds a 4) := if_neg h

theorem addressFault_of_eaOk {s : State} {m : MemOp} (h : eaOk s m) : addressFault s m = none := if_pos h

theorem addressFault_of_not {s : State} {m : MemOp} (h : ¬ eaOk s m) :
    addressFault s m = some (.outOfBounds (s.addrOf m) 4) := if_neg h

theorem operandFault_eq_none {s : State} {m : MemOp} (hea : eaOk s m) (hin : operandInBounds s m) :
    operandFault s m = none := by
  rw [operandFault, addressFault_of_eaOk hea, Option.none_or]
  exact slotFault_eq_none_iff.mpr hin

theorem raised_operand_eq_none {s : State} {i : Instr} {m : MemOp} (hm : i.memOp? = some m) (hlea : isLea i = false)
    (hslot : stackSlot s i = none) (hea : eaOk s m) (hin : operandInBounds s m) : raised s i = none :=
  (raised_eq_operandFault hm hlea hslot).trans (operandFault_eq_none hea hin)

theorem raised_slot_eq_none {s : State} {i : Instr} {a : Word} (hm : i.memOp? = none) (hslot : stackSlot s i = some a)
    (hin : a.toNat + 4 ≤ s.cfg.memSize) : raised s i = none :=
  (raised_eq_slotFault hm hslot).trans (slotFault_eq_none_iff.mpr hin)

theorem raised_pushM_eq {s : State} {m : MemOp} (hea : eaOk s m) (hin : operandInBounds s m) :
    raised s (.pushM m) = slotFault s (s.reg .esp - 4) :=
  (congrArg (·.or (slotFault s (s.reg .esp - 4))) (operandFault_eq_none hea hin)).trans Option.none_or

/-- Every fault behind the fetch is an access of width 4, of bytes that leave Memory or at an address that overflowed. -/
theorem raised_eq_some {s : State} {i : Instr} {c : FaultCause} (h : raised s i = some c) :
    ∃ a, c = .outOfBounds a 4 ∧ (s.cfg.memSize < a.toNat + 4 ∨ s.cfg.eaOverflow = .fault) := by
  have hslot {a : Word} (h : slotFault s a = some c) :
      ∃ a, c = .outOfBounds a 4 ∧ (s.cfg.memSize < a.toNat + 4 ∨ s.cfg.eaOverflow = .fault) := by
    obtain ⟨hout, hc⟩ := Option.ite_none_left_eq_some.mp h
    exact ⟨a, (Option.some.inj hc).symm, .inl (Nat.lt_of_not_le hout)⟩
  have haddress {m : MemOp} (h : addressFault s m = some c) :
      ∃ a, c = .outOfBounds a 4 ∧ (s.cfg.memSize < a.toNat + 4 ∨ s.cfg.eaOverflow = .fault) := by
    obtain ⟨hea, hc⟩ := Option.ite_none_left_eq_some.mp h
    refine ⟨s.addrOf m, (Option.some.inj hc).symm, .inr ?_⟩
    exact (not_not.mp (mt (eaOk_iff s m).mpr hea)).1
  obtain h | ⟨-, h⟩ := Option.or_eq_some_iff.mp h
  · obtain ⟨m, -, h⟩ := Option.bind_eq_some_iff.mp h
    split at h
    · exact haddress h
    · exact (Option.or_eq_some_iff.mp h).elim haddress fun h => hslot h.2
  · obtain ⟨a, -, h⟩ := Option.bind_eq_some_iff.mp h
    exact hslot h

/-- A store of an instruction that raises nothing lies inside Memory. -/
theorem writesMem_inBounds {s : State} {i : Instr} {a : Word} (hr : raised s i = none) (ha : writesMem s i = some a) :
    a.toNat + 4 ≤ s.cfg.memSize := by
  refine slotFault_eq_none_iff.mp ?_
  cases i
  case addMR | subMR | addMImm8 | subMImm8 | movMR | movMImm32 =>
    cases ha
    rw [raised_eq_operandFault rfl rfl rfl] at hr
    exact (Option.or_eq_none_iff.mp hr).2
  case pushR | pushImm8 | callRel32 =>
    cases ha
    rwa [raised_eq_slotFault rfl rfl] at hr
  case pushM =>
    cases ha
    exact (Option.or_eq_none_iff.mp hr).2
  all_goals cases ha

/-! ## The fields of the completed state -/

section Fields

variable {s : State} {i : Instr}

theorem get_foldl_set {r : Reg} : ∀ {ws : List (Reg × Word)} {rs : Regs}, r ∉ ws.map Prod.fst →
    (ws.foldl (fun rs w => rs.set w.1 w.2) rs).get r = rs.get r
  | [], _, _ => rfl
  | w :: ws, rs, h => by
    rw [List.map_cons, List.mem_cons, not_or] at h
    rw [List.foldl_cons, get_foldl_set h.2, Regs.get_set, if_neg h.1]

theorem map_fst_regWrites (s : State) (i : Instr) : (regWrites s i).map Prod.fst = writesReg i := by
  cases i <;> rfl

theorem reg_completed_of_notMem {r : Reg} (h : r ∉ writesReg i) : (completed s i).reg r = s.reg r :=
  get_foldl_set (map_fst_regWrites s i ▸ h)

theorem reg_completed_single {rd : Reg} {v : Word} (h : regWrites s i = [(rd, v)]) : (completed s i).reg rd = v := by
  have hregs : newRegs s i = s.regs.set rd v := by rw [newRegs, h]; rfl
  rw [State.reg, completed, hregs, Regs.get_set, if_pos rfl]

theorem mem_completed_of_none (h : writesMem s i = none) : (completed s i).mem = s.mem := by
  rw [completed, newMem, h]

/-- A form that stores a word to an address stores the word of `storedWord` there. -/
theorem mem_completed_of_some {a : Word} (h : writesMem s i = some a) :
    ∃ v, storedWord s i = some v ∧ (completed s i).mem = (s.setWord a.toNat v).mem := by
  cases i
  case addMR | subMR | addMImm8 | subMImm8 | movMR | movMImm32 | pushR | pushImm8 | pushM | callRel32 =>
    cases h
    exact ⟨_, rfl, rfl⟩
  all_goals cases h

theorem status_completed (h : i ≠ .ret) : (completed s i).status = s.status := by
  cases i
  case ret => exact absurd rfl h
  all_goals rfl

theorem ne_ret_of_not_isTransfer (h : isTransfer i = false) : i ≠ .ret := by
  rintro rfl
  cases h

theorem pc_completed (h : isTransfer i = false) : (completed s i).pc = nextPc i s := by
  cases i
  case callRel32 | ret | jmpRel8 | jzRel8 | jnzRel8 | jgRel8 | jngRel8 | jzRel32 | jnzRel32 => cases h
  all_goals rfl

theorem flags_completed (hr : raised s i = none) (hcmp : isCmp i = false) : (completed s i).flags = s.flags :=
  flags_of_exec hcmp (exec_of_raised_none hr)

end Fields

end Sys2Proof

/-! Everything a step can do, and what follows for every step and every instruction (10_state.md sections 1 to 3,
20_memory.md section 5, 41_dispatch.md R164, R165, 60_exceptions.md section 2). -/

namespace Sys2Proof

open Sys2Proof.Machine Sys2Proof.Claims

/-! ## Everything a step can do -/

/-- The bytes a rejection names. -/
def DecodeError.bytes : DecodeError → List Byte
  | .unsupportedOpcode bs => bs
  | .unsupportedAddressingMode bs => bs
  | .truncated bs => bs

/-- The cause of the fault that a rejection at `s` is (60_exceptions.md R263 to R265). -/
def rejectCause (s : State) : DecodeError → FaultCause
  | .unsupportedOpcode _ => .unsupportedOpcode
  | .unsupportedAddressingMode _ => .unsupportedAddressingMode
  | .truncated bs => .outOfBounds (s.pc + BitVec.ofNat 32 bs.length) 1

theorem raiseDecode_eq (s : State) (e : DecodeError) : s.raiseDecode e = faulted s (rejectCause s e) e.bytes := by
  cases e <;> rfl

/-- The step at `s` raises `c` with the bytes `bs`: what was fetched decodes to an instruction that raises it, or is
rejected so. -/
def StepRaises (s : State) (c : FaultCause) (bs : List Byte) : Prop :=
  (∃ i rest, decode s.fetchWindow = .instr i rest ∧ raised s i = some c ∧ bs = encode i) ∨
    ∃ e, decode s.fetchWindow = .reject e ∧ c = rejectCause s e ∧ bs = e.bytes

/-- Everything a next state of `step` can be. -/
theorem step_next_cases {s t : State} (h : step s = .next t) :
    (∃ i rest, decode s.fetchWindow = .instr i rest ∧ raised s i = none ∧ t = completed s i) ∨
      ∃ c bs, StepRaises s c bs ∧ t = faulted s c bs := by
  obtain ⟨i, rest, hdec, hstep⟩ | ⟨e, hdec, hstep⟩ := step_running s (status_of_step_next h)
  · obtain ⟨hr, ht⟩ | ⟨c, hr, ht⟩ := exec_next_cases (hstep.symm.trans h)
    · exact .inl ⟨i, rest, hdec, hr, ht⟩
    · exact .inr ⟨c, encode i, .inl ⟨i, rest, hdec, hr, rfl⟩, ht⟩
  · rw [raiseDecode_eq, h] at hstep
    injection hstep with ht
    exact .inr ⟨_, _, .inr ⟨e, hdec, rfl, rfl⟩, ht⟩

/-- The popped word decides whether RET halts; no other instruction that raises nothing changes the status. -/
theorem status_completed_cases (s : State) (i : Instr) : (completed s i).status = s.status ∨
    (i = .ret ∧ wordAt s (s.reg .esp).toNat = 0 ∧ (completed s i).status = .halted) := by
  by_cases hi : i = .ret
  · subst hi
    rw [completed_ret]
    split
    · next h => exact .inr ⟨rfl, h, rfl⟩
    · exact .inl rfl
  · exact .inl (status_completed hi)

theorem step_fault {s t : State} {r : FaultRecord} (h : step s = .next t) (hfault : t.status = .fault r) :
    StepRaises s r.cause r.bytes ∧ t = faulted s r.cause r.bytes ∧ r.eip = s.pc := by
  obtain ⟨i, -, -, -, rfl⟩ | ⟨c, bs, hraise, rfl⟩ := step_next_cases h
  · have hrun := status_of_step_next h
    obtain hs | ⟨-, -, hs⟩ := status_completed_cases s i <;> simp [hs, hrun] at hfault
  · cases hfault
    exact ⟨hraise, rfl, rfl⟩

/-! ## The invariant -/

/-- An instruction that raises nothing keeps the canonical form and the bound of Memory. -/
theorem memory_completed {s : State} {i : Instr} (hr : raised s i = none) (hwf : s.mem.wf = true)
    (hbelow : s.mem.below s.cfg.memSize = true) :
    (completed s i).mem.wf = true ∧ (completed s i).mem.below s.cfg.memSize = true := by
  cases ha : writesMem s i with
  | none =>
    rw [mem_completed_of_none ha]
    exact ⟨hwf, hbelow⟩
  | some a =>
    obtain ⟨v, -, hmem⟩ := mem_completed_of_some ha
    rw [hmem]
    exact ⟨State.wf_setWord hwf _ v, State.below_setWord (writesMem_inBounds hr ha) hbelow v⟩

/-- Settles O17: a completed instruction keeps Memory's form and leaves no fault, and fault entry names the pc. -/
theorem stepKeepsInvariant : Obligations.StepKeepsInvariant := by
  intro s t hinv hstep
  obtain ⟨i, -, -, hr, rfl⟩ | ⟨c, bs, -, rfl⟩ := step_next_cases hstep
  · obtain ⟨hwf, hbelow⟩ := memory_completed hr hinv.form hinv.bounded
    refine ⟨hinv.config, hwf, hbelow, ?_⟩
    obtain hs | ⟨-, -, hs⟩ := status_completed_cases s i <;> rw [hs]
    · rw [status_of_step_next hstep]
      trivial
    · trivial
  · exact ⟨hinv.config, hinv.form, hinv.bounded, rfl⟩

/-! ## Faults -/

/-- Settles O23: a fault is fault entry at the state before the step. -/
theorem faultLeavesStateUnchanged : Obligations.FaultLeavesStateUnchanged := by
  intro s t r _ hstep hfault
  obtain ⟨-, rfl, heip⟩ := step_fault hstep hfault
  exact ⟨rfl, rfl, rfl, rfl, rfl, heip⟩

/-- The bytes of a record are the front of the fetched window. -/
theorem StepRaises.isPrefix {s : State} {c : FaultCause} {bs : List Byte} (h : StepRaises s c bs) :
    bs <+: s.fetchWindow := by
  obtain ⟨i, rest, hdec, -, rfl⟩ | ⟨e, hdec, -, rfl⟩ := h
  · exact ⟨rest, (encodeOfDecode _ rest i hdec).2⟩
  · obtain ⟨hop, hmode, htrunc⟩ := rejectionsNameTheirBytes s.fetchWindow e.bytes
    cases e with
    | unsupportedOpcode e => exact (hop hdec).1
    | unsupportedAddressingMode e => exact (hmode hdec).1
    | truncated e => exact (htrunc hdec).1 ▸ List.prefix_rfl

/-- Settles O24: the record's bytes are the front of the window, which stands at the pc. -/
theorem faultRecordBytesStandAtEip : Obligations.FaultRecordBytesStandAtEip := by
  intro s t r _ hstep hfault
  have hbytes := (step_fault hstep hfault).1.isPrefix
  exact ⟨bytesAtPc_of_isPrefix hbytes (bytesAtPc_fetchWindow s), hbytes.length_le.trans (length_fetchWindow_le s)⟩

/-- Settles O25: a rejection's record from what the decoder has read, an instruction's from the access it makes. -/
theorem faultRecordShape : Obligations.FaultRecordShape := by
  intro s t r _ hstep hfault
  obtain ⟨hraise, -, -⟩ := step_fault hstep hfault
  obtain ⟨cause, eip, bytes⟩ := r
  obtain ⟨i, rest, -, hr, rfl⟩ | ⟨e, hdec, rfl, rfl⟩ := hraise
  · obtain ⟨a, rfl, hout⟩ := raised_eq_some hr
    exact .inr ⟨rfl, i.length_encode ▸ i.length_pos, hout⟩
  · have hread := decode_readFrom s.fetchWindow
    rw [hdec] at hread
    cases e with
    | unsupportedOpcode e => exact hread.2
    | unsupportedAddressingMode e => exact hread.2
    | truncated e =>
      obtain ⟨rfl, hlen⟩ := hread
      exact .inl ⟨rfl, rfl, memSize_le_of_length_bytesFrom_lt s _ _ hlen⟩

/-- Settles O26: only a RET halts, and the byte it was decoded from is C3. -/
theorem onlyFaultsAndRetEndARun : Obligations.OnlyFaultsAndRetEndARun := by
  intro s t hrun hstep
  obtain ⟨i, rest, hdec, hr, rfl⟩ | ⟨c, bs, -, rfl⟩ := step_next_cases hstep
  · obtain hs | ⟨rfl, hword, hs⟩ := status_completed_cases s i
    · exact .inl (hs.trans hrun)
    · have hwindow : s.fetchWindow = 0xC3 :: rest := (encodeOfDecode _ rest .ret hdec).2.symm
      have hbyte := (standsAt_cons.mp (hwindow ▸ bytesAtPc_fetchWindow s)).1.2
      rw [raised_eq_slotFault rfl rfl] at hr
      exact .inr (.inr ⟨hs, hbyte, slotFault_eq_none_iff.mp hr, (wordAt_eq_zero_iff s _).mp hword⟩)
  · exact .inr (.inl ⟨_, rfl⟩)

/-- Settles O27: neither outcome writes the configuration. -/
theorem configurationIsFixed : Obligations.ConfigurationIsFixed := by
  refine fun s t => ⟨fun i h => ?_, fun h => ?_⟩
  · obtain ⟨-, rfl⟩ | ⟨c, -, rfl⟩ := exec_next_cases h <;> rfl
  · obtain ⟨i, -, -, -, rfl⟩ | ⟨c, bs, -, rfl⟩ := step_next_cases h <;> rfl

/-! ## What every instruction leaves alone -/

theorem raised_setFlags (s : State) (f : Flags) (i : Instr) : raised (s.setFlags f) i = raised s i := by
  cases i <;> rfl

/-- The flags reach a state after an instruction only through the pc and the flags. -/
theorem afterInstr_setFlags {s : State} {f : Flags} {i : Instr}
    (hpc : (completed (s.setFlags f) i).pc = (completed s i).pc) :
    sameButFlags (afterInstr s i) (afterInstr (s.setFlags f) i) := by
  unfold afterInstr
  rw [raised_setFlags]
  cases raised s i with
  | none => exact ⟨rfl, hpc, rfl, rfl, rfl⟩
  | some c => exact ⟨rfl, rfl, rfl, rfl, rfl⟩

/-- Settles O29: but for the conditional jumps the pc does not depend on the flags, and for those not on CF. -/
theorem flagsAreReadOnlyByConditionalJumps : Obligations.FlagsAreReadOnlyByConditionalJumps := by
  intro i s t h
  rw [exec_eq] at h
  injection h with ht
  subst ht
  refine ⟨fun hjcc f => ⟨_, exec_eq i (s.setFlags f), afterInstr_setFlags ?_⟩,
    fun c => ⟨_, exec_eq i (s.setFlags { s.flags with cf := c }), afterInstr_setFlags ?_⟩⟩
  · cases i
    case jzRel8 | jnzRel8 | jgRel8 | jngRel8 | jzRel32 | jnzRel32 => cases hjcc
    all_goals rfl
  · cases i <;> rfl

/-- Settles O30: a completed instruction writes the registers in its column, and fault entry none. -/
theorem registerWriters : Obligations.RegisterWriters := by
  intro i s t h r hr
  obtain ⟨-, rfl⟩ | ⟨c, -, rfl⟩ := exec_next_cases h
  · exact reg_completed_of_notMem hr
  · rfl

/-- Settles O31: a completed instruction stores one word or none, and fault entry stores nothing. -/
theorem memoryWriters : Obligations.MemoryWriters := by
  intro i s t h
  obtain ⟨-, rfl⟩ | ⟨c, -, rfl⟩ := exec_next_cases h
  · refine ⟨fun hnone x => ?_, fun a ha x hx => ?_⟩
    · rw [State.byteAt, mem_completed_of_none hnone, State.byteAt]
    · obtain ⟨v, -, hmem⟩ := mem_completed_of_some ha
      rw [State.byteAt, hmem]
      exact State.byteAt_setWord_ne s v hx
  · exact ⟨fun _ _ => rfl, fun _ _ _ _ => rfl⟩

/-- Settles O32: a state that still runs is no fault entry, so it is the completed one. -/
theorem pcOfStraightLineInstructions : Obligations.PcOfStraightLineInstructions := by
  intro i s t htransfer _ h hrun
  obtain ⟨-, rfl⟩ := exec_next_running hrun h
  exact pc_completed htransfer

/-! ## Stores and fetches -/

theorem toNat_add_ofNat {a : Word} {k : Nat} (h : a.toNat + k < 2 ^ 32) : (a + BitVec.ofNat 32 k).toNat = a.toNat + k := by
  rw [BitVec.toNat_add, BitVec.toNat_ofNat]
  omega

/-- The u32 at an address stands there byte by byte, if it lies inside Memory. -/
theorem standsAt_bytesOf_wordAt {s : State} {a : Word} (hsize : s.cfg.memSize ≤ 2 ^ 32)
    (hin : a.toNat + 4 ≤ s.cfg.memSize) : StandsAt s a (bytesOf (wordAt s a.toNat)) := by
  rw [bytesOf_wordAt]
  intro k hk
  have hk4 : k < 4 := hk
  rw [toNat_add_ofNat (by omega)]
  refine ⟨by omega, ?_⟩
  obtain rfl | rfl | rfl | rfl : k = 0 ∨ k = 1 ∨ k = 2 ∨ k = 3 := by omega
  all_goals rfl

theorem length_bytesOf_le (w : Word) : (bytesOf w).length ≤ maxInstrLength := by
  rw [length_bytesOf]
  decide

/-- Settles O36: the stored word stands in Memory, so a fetch there finds it. -/
theorem storeIsSeenByTheNextFetch : Obligations.StoreIsSeenByTheNextFetch := by
  intro s t i a hinv hrun ha h htrun
  obtain ⟨hr, rfl⟩ := exec_next_running htrun h
  obtain ⟨v, hv, hmem⟩ := mem_completed_of_some ha
  refine ⟨v, hv, ?_⟩
  have hword : wordAt ((completed s i).setPc a) a.toNat = v := by
    have hbyte (x : Nat) : ((completed s i).setPc a).byteAt x = (s.setWord a.toNat v).byteAt x := congrArg (·.get x) hmem
    rw [← wordAt_setWord hinv.form a.toNat v]
    simp only [wordAt, wordNat, hbyte]
  have hin : a.toNat + 4 ≤ s.cfg.memSize := writesMem_inBounds hr ha
  have hstands := standsAt_bytesOf_wordAt (s := (completed s i).setPc a) hinv.config.2 hin
  rw [hword] at hstands
  rw [fetchWindow_of_bytesAtPc (s := (completed s i).setPc a) hstands (length_bytesOf_le v)]
  exact List.take_left' (length_bytesOf v)

end Sys2Proof

/-! What each form does (42_data_movement.md, 43_arith_logic.md, 44_control_transfer.md) and where it traps
(60_exceptions.md R265, R267): one lemma for each kind of result, and then every form by its entries in the effect. -/

namespace Sys2Proof

open Sys2Proof.Machine Sys2Proof.Claims

/-! ## Words by value -/

theorem toNat_sub_eq (a b : Word) : (a - b).toNat = (a.toNat + 2 ^ 32 - b.toNat) % 2 ^ 32 := by
  have := b.isLt
  rw [BitVec.toNat_sub]
  congr 1
  omega

theorem toNat_ushiftRight_one (a : Word) : (a >>> 1).toNat = a.toNat / 2 := by
  rw [BitVec.toNat_ushiftRight, Nat.shiftRight_eq_div_pow, Nat.pow_one]

theorem addrOf_eq (s : State) (m : MemOp) : s.addrOf m = s.reg m.base + dispValue m.disp := by
  rw [State.addrOf, addrSum_eq, dispWord_eq_dispValue]

/-- Settles O40: the exact sum modulo 2^32 is the wraparound sum, and the check is the one of its range. -/
theorem effectiveAddress : Obligations.EffectiveAddress := by
  intro s m
  rw [ea_eq_answer, ← addrOf_eq]
  exact ⟨rfl, fun h => by rw [addressFault_of_eaOk h]; rfl, fun h => by rw [addressFault_of_not h]; rfl⟩

/-! ## Kinds of results -/

section Results

variable {i : Instr} {s : State}

/-- A form that writes one register, and neither Memory nor flags, and is no transfer. -/
theorem regResult {rd : Reg} {v : Word} {n : Nat} (hr : raised s i = none) (hw : regWrites s i = [(rd, v)])
    (hm : writesMem s i = none) (hcmp : isCmp i = false) (ht : isTransfer i = false) (hv : v.toNat = n) :
    RegResult i s rd n := by
  have hregs : writesReg i = [rd] := by rw [← map_fst_regWrites s, hw]; rfl
  refine ⟨completed s i, exec_of_raised_none hr, ?_, ?_, ?_, flags_completed hr hcmp,
    status_completed (ne_ret_of_not_isTransfer ht), rfl, pc_completed ht⟩
  · rw [reg_completed_single hw, hv]
  · exact fun r h => reg_completed_of_notMem (hregs ▸ h)
  · exact fun a => congrArg (·.get a) (mem_completed_of_none hm)

/-- The word that was stored is there, and every byte outside its four is as before. -/
theorem wordStored_completed {a v : Word} (hwf : s.mem.wf = true) (hm : writesMem s i = some a)
    (hv : storedWord s i = some v) : wordStored s (completed s i) a.toNat v.toNat := by
  obtain ⟨v', hv', hmem⟩ := mem_completed_of_some hm
  obtain rfl : v = v' := Option.some.inj (hv.symm.trans hv')
  have hbyte (x : Nat) : (completed s i).byteAt x = (s.setWord a.toNat v).byteAt x := congrArg (·.get x) hmem
  refine ⟨?_, fun x hx => (hbyte x).trans (State.byteAt_setWord_ne s v hx)⟩
  rw [← wordAt_setWord hwf a.toNat v, wordAt_toNat]
  simp only [wordNat, hbyte]

/-- A form that stores one word, and writes neither registers nor flags, and is no transfer. -/
theorem memResult {a v : Word} {n : Nat} (hwf : s.mem.wf = true) (hr : raised s i = none) (hw : regWrites s i = [])
    (hm : writesMem s i = some a) (hv : storedWord s i = some v) (hcmp : isCmp i = false) (ht : isTransfer i = false)
    (hn : v.toNat = n) : MemResult i s a.toNat n := by
  have hregs : writesReg i = [] := by rw [← map_fst_regWrites s, hw]; rfl
  refine ⟨completed s i, exec_of_raised_none hr, hn ▸ wordStored_completed hwf hm hv, ?_, flags_completed hr hcmp,
    status_completed (ne_ret_of_not_isTransfer ht), rfl, pc_completed ht⟩
  exact fun r h => reg_completed_of_notMem (hregs ▸ h)

/-- A form that pushes a word. -/
theorem pushResult {v : Word} {n : Nat} (hwf : s.mem.wf = true) (hr : raised s i = none)
    (hw : regWrites s i = [(.esp, s.reg .esp - 4)]) (hm : writesMem s i = some (s.reg .esp - 4))
    (hv : storedWord s i = some v) (hcmp : isCmp i = false) (hret : i ≠ .ret) (hn : v.toNat = n) :
    PushResult i s n (completed s i).pc := by
  have hregs : writesReg i = [.esp] := by rw [← map_fst_regWrites s, hw]; rfl
  refine ⟨completed s i, exec_of_raised_none hr, reg_completed_single hw, hn ▸ wordStored_completed hwf hm hv, ?_,
    flags_completed hr hcmp, status_completed hret, rfl, rfl⟩
  exact fun r h => reg_completed_of_notMem (hregs ▸ h)

end Results

/-! ## Register destinations -/

/-- Settles O41: both forms write one word to one register, and have no operand that could raise. -/
theorem movToRegister : Obligations.MovToRegister := fun _ _ _ _ =>
  ⟨regResult rfl rfl rfl rfl rfl rfl, regResult rfl rfl rfl rfl rfl rfl⟩

/-- Settles O48: the sum of words is the sum modulo 2^32. -/
theorem addToRegister : Obligations.AddToRegister := fun _ _ _ _ _ =>
  ⟨regResult rfl rfl rfl rfl rfl (BitVec.toNat_add ..), regResult rfl rfl rfl rfl rfl (BitVec.toNat_add ..),
    regResult rfl rfl rfl rfl rfl (BitVec.toNat_add ..), regResult rfl rfl rfl rfl rfl (BitVec.toNat_add ..)⟩

/-- Settles O49: the difference of words is the difference modulo 2^32. -/
theorem subFromRegister : Obligations.SubFromRegister := fun _ _ _ _ _ =>
  ⟨regResult rfl rfl rfl rfl rfl (toNat_sub_eq ..), regResult rfl rfl rfl rfl rfl (toNat_sub_eq ..),
    regResult rfl rfl rfl rfl rfl (toNat_sub_eq ..), regResult rfl rfl rfl rfl rfl (toNat_sub_eq ..)⟩

/-- Settles O50: the words are the bitwise ones, and a shift by one halves. -/
theorem logicOnRegister : Obligations.LogicOnRegister := fun _ _ _ _ =>
  ⟨regResult rfl rfl rfl rfl rfl rfl, regResult rfl rfl rfl rfl rfl rfl,
    regResult rfl rfl rfl rfl rfl (toNat_ushiftRight_one _)⟩

/-- Settles O42: with the operand in bounds nothing is raised, and the loaded word is the u32 there. -/
theorem loadFromMemory : Obligations.LoadFromMemory := by
  intro s rd m hea hin
  have hr {i : Instr} (hm : i.memOp? = some m) (hlea : isLea i = false) (hslot : stackSlot s i = none) :
      raised s i = none := raised_operand_eq_none hm hlea hslot hea hin
  refine ⟨regResult (hr rfl rfl rfl) rfl rfl rfl rfl (wordAt_toNat ..), regResult (hr rfl rfl rfl) rfl rfl rfl rfl ?_,
    regResult (hr rfl rfl rfl) rfl rfl rfl rfl ?_⟩
  · rw [BitVec.toNat_add, wordAt_toNat]
  · rw [toNat_sub_eq, wordAt_toNat]

/-- Settles O44: LEA can raise only for the address addition. -/
theorem leaWritesTheAddress : Obligations.LeaWritesTheAddress := by
  intro s rd m hea
  refine regResult ((raised_eq_addressFault s rd m).trans (addressFault_of_eaOk hea)) rfl rfl rfl rfl ?_
  rw [addrOf_eq, BitVec.toNat_add]

/-! ## Memory destinations -/

/-- Settles O43: with the operand in bounds nothing is raised, and the source is the word stored. -/
theorem storeToMemory : Obligations.StoreToMemory := by
  intro s m rs imm hwf hea hin
  exact ⟨memResult hwf (raised_operand_eq_none rfl rfl rfl hea hin) rfl rfl rfl rfl rfl rfl,
    memResult hwf (raised_operand_eq_none rfl rfl rfl hea hin) rfl rfl rfl rfl rfl rfl⟩

/-- Settles O51: the word stored is the sum or difference with the u32 that was there. -/
theorem addSubOnMemory : Obligations.AddSubOnMemory := by
  intro s m rs imm8 hwf hea hin
  have hadd (v : Word) : (wordAt s (s.addrOf m).toNat + v).toNat = (wordNat s (s.addrOf m).toNat + v.toNat) % 2 ^ 32 := by
    rw [BitVec.toNat_add, wordAt_toNat]
  have hsub (v : Word) :
      (wordAt s (s.addrOf m).toNat - v).toNat = (wordNat s (s.addrOf m).toNat + 2 ^ 32 - v.toNat) % 2 ^ 32 := by
    rw [toNat_sub_eq, wordAt_toNat]
  have hr {i : Instr} (hm : i.memOp? = some m) (hlea : isLea i = false) (hslot : stackSlot s i = none) :
      raised s i = none := raised_operand_eq_none hm hlea hslot hea hin
  exact ⟨memResult hwf (hr rfl rfl rfl) rfl rfl rfl rfl rfl (hadd _),
    memResult hwf (hr rfl rfl rfl) rfl rfl rfl rfl rfl (hadd _),
    memResult hwf (hr rfl rfl rfl) rfl rfl rfl rfl rfl (hsub _),
    memResult hwf (hr rfl rfl rfl) rfl rfl rfl rfl rfl (hsub _)⟩

/-! ## The stack -/

/-- Settles O45: the words are those of the state before the push. -/
theorem pushStoresBelowTheTop : Obligations.PushStoresBelowTheTop := by
  intro s r imm m hwf hin
  have himm : storedWord s (.pushImm8 imm) =
    some (if s.cfg.pushImm8Ext = .sign then sext imm else BitVec.ofNat 32 imm.toNat) := rfl
  refine ⟨pushResult hwf (raised_slot_eq_none rfl rfl hin) rfl rfl rfl rfl nofun rfl, fun hext => ?_, fun hext => ?_,
    fun hea hop => ?_⟩
  · refine pushResult hwf (raised_slot_eq_none rfl rfl hin) rfl rfl himm rfl nofun ?_
    rw [hext, if_neg nofun, BitVec.toNat_ofNat]
    have := imm.isLt
    omega
  · refine pushResult hwf (raised_slot_eq_none rfl rfl hin) rfl rfl himm rfl nofun ?_
    rw [if_pos hext]
  · have hr : raised s (.pushM m) = none := (raised_pushM_eq hea hop).trans (slotFault_eq_none_iff.mpr hin)
    exact pushResult hwf hr rfl rfl rfl rfl nofun (wordAt_toNat ..)

/-- Settles O46: ESP is written before the destination, which may be ESP. -/
theorem popLoadsTheTop : Obligations.PopLoadsTheTop := by
  intro s r hin
  have hr : raised s (.popR r) = none := raised_slot_eq_none rfl rfl hin
  have hreg (q : Reg) : (completed s (.popR r)).reg q =
      ((s.setReg .esp (s.reg .esp + 4)).setReg r (wordAt s (s.reg .esp).toNat)).reg q := rfl
  refine ⟨completed s (.popR r), exec_of_raised_none hr, ?_, fun hne => ?_, fun q hq => ?_, fun _ => rfl, rfl, rfl, rfl, rfl⟩
  · rw [hreg, State.reg_setReg, if_pos rfl, wordAt_toNat]
  · rw [hreg, State.reg_setReg, if_neg hne.symm, State.reg_setReg, if_pos rfl]
  · simp only [List.mem_cons, List.not_mem_nil, or_false, not_or] at hq
    rw [hreg, State.reg_setReg, if_neg hq.1, State.reg_setReg, if_neg hq.2]

/-- Settles O47: the pop reads the slot that the push wrote. -/
theorem pushPopRoundTrip : Obligations.PushPopRoundTrip := by
  intro s r r' _ hr' hwf hin
  obtain ⟨t, ht, hsp, ⟨hword, -⟩, hkept, hflags, hstatus, hcfg, -⟩ :=
    (pushStoresBelowTheTop s r 0 ⟨true, .eax, .d8 0⟩ hwf hin).1
  have hpop : popInBounds t := by
    unfold popInBounds
    rw [hsp, hcfg]
    exact hin
  obtain ⟨u, hu, hval, hesp, hkept', -, hflags', hstatus', -⟩ := popLoadsTheTop t r' hpop
  have hesp : u.reg .esp = s.reg .esp := by rw [hesp hr', hsp, BitVec.sub_add_cancel]
  refine ⟨t, u, ht, hu, ?_, hesp, fun q hq => ?_, hflags'.trans hflags, hstatus'.trans hstatus⟩
  · apply BitVec.eq_of_toNat_eq
    rw [hval, hsp, hword]
  · by_cases hq' : q = .esp
    · rw [hq', hesp]
    · exact (hkept' q (by simpa [hq'] using hq)).trans (hkept q (by simpa using hq'))

/-! ## CMP -/

/-- Settles O52: the flags of the completed state are those of the comparison, and no other field but the pc is written. -/
theorem cmpWritesTheFlags : Obligations.CmpWritesTheFlags := fun _ _ _ _ =>
  ⟨exec_of_raised_none rfl, fun hea hin =>
    ⟨exec_of_raised_none (raised_operand_eq_none rfl rfl rfl hea hin),
      exec_of_raised_none (raised_operand_eq_none rfl rfl rfl hea hin)⟩⟩

/-! ## Control transfer -/

/-- Settles O53: the word pushed is the address behind the instruction, to which the jump is relative. -/
theorem callPushesTheReturnAddress : Obligations.CallPushesTheReturnAddress := fun _ _ hwf hin =>
  pushResult hwf (raised_slot_eq_none rfl rfl hin) rfl rfl rfl rfl nofun rfl

/-- Settles O54: the popped word decides between the two completed states. -/
theorem retPopsThePcOrHalts : Obligations.RetPopsThePcOrHalts := by
  intro s hin
  have hr : raised s .ret = none := raised_slot_eq_none rfl rfl hin
  refine ⟨completed s .ret, exec_of_raised_none hr, reg_completed_single rfl, fun q hq => reg_completed_of_notMem hq,
    fun _ => rfl, rfl, rfl, fun hzero => ?_, fun hne => ?_⟩
  · rw [completed_ret, if_pos ((wordAt_eq_zero_iff ..).mpr hzero)]
    exact ⟨rfl, rfl⟩
  · rw [completed_ret, if_neg (mt (wordAt_eq_zero_iff ..).mp hne)]
    exact ⟨rfl, wordAt_toNat ..⟩

/-- Settles O55: a jump has no operand that could raise, and only the pc is written. -/
theorem jmpIsRelative : Obligations.JmpIsRelative := fun _ _ => exec_of_raised_none rfl

/-- Settles O56: the conditions of the effect are those over the flags, and only the pc is written. -/
theorem conditionalJumps : Obligations.ConditionalJumps := fun _ _ _ =>
  ⟨exec_of_raised_none rfl, exec_of_raised_none rfl, exec_of_raised_none rfl, exec_of_raised_none rfl,
    exec_of_raised_none rfl, exec_of_raised_none rfl⟩

/-! ## Where instructions trap -/

theorem isLea_eq_false {i : Instr} {m : MemOp} (hm : i.memOp? = some m) (hlea : ∀ r, i ≠ .lea r m) : isLea i = false := by
  cases i
  case lea r m' =>
    obtain rfl : m' = m := Option.some.inj hm
    exact absurd rfl (hlea r)
  all_goals rfl

/-- Settles O58: the fault of the operand comes before that of a stack slot. -/
theorem dataAccessOutOfBoundsFaults : Obligations.DataAccessOutOfBoundsFaults := by
  intro s i m hm hlea hea hout
  refine exec_of_raised_some ?_
  have hop : operandFault s m = some (.outOfBounds (s.addrOf m) 4) := by
    rw [operandFault, addressFault_of_eaOk hea, Option.none_or]
    exact slotFault_of_not hout
  simp [raised, hm, isLea_eq_false hm hlea, hop]

/-- Settles O60: with or without an access, the address comes first. -/
theorem addressOverflowFaults : Obligations.AddressOverflowFaults := by
  intro s i m hm hea
  refine exec_of_raised_some ?_
  simp [raised, hm, operandFault, addressFault_of_not hea, addrOf_eq]

/-- Settles O59: with no operand, or one that is in bounds, the fault is that of the stack slot. -/
theorem stackAccessOutOfBoundsFaults : Obligations.StackAccessOutOfBoundsFaults := by
  intro s r imm8 m rel
  have htrap {i : Instr} {a : Word} (hm : i.memOp? = none) (hslot : stackSlot s i = some a)
      (hout : ¬ a.toNat + 4 ≤ s.cfg.memSize) : exec i s = .next (faulted s (.outOfBounds a 4) (encode i)) :=
    exec_of_raised_some ((raised_eq_slotFault hm hslot).trans (slotFault_of_not hout))
  refine ⟨fun hout => ⟨fun i hi => ?_, fun hea hin => ?_⟩, fun hout i hi => ?_⟩
  · simp only [List.mem_cons, List.not_mem_nil, or_false] at hi
    obtain rfl | rfl | rfl := hi <;> exact htrap rfl rfl hout
  · exact exec_of_raised_some ((raised_pushM_eq hea hin).trans (slotFault_of_not hout))
  · simp only [List.mem_cons, List.not_mem_nil, or_false] at hi
    obtain rfl | rfl := hi <;> exact htrap rfl rfl hout

end Sys2Proof

/-! The memory primitives (20_memory.md section 2), what Compare says about two words (40_alu_flags.md R137, R145) and the
launch (10_state.md R34, R40). -/

namespace Sys2Proof

open Sys2Proof.Machine Sys2Proof.Claims

/-! ## Memory primitives -/

/-- Settles O33: the four bytes in address order are the word of that u32. -/
theorem memReadIsLittleEndian : Obligations.MemReadIsLittleEndian := by
  refine fun s a => ⟨fun h => State.memRead8_ok h, fun h => State.memRead8_error (by omega), fun h => ?_,
    fun h => State.memRead32_error h⟩
  exact ⟨wordAt s a.toNat, by rw [State.memRead32_ok h, wordOf_byteAt], wordAt_toNat s a.toNat⟩

/-- Settles O34: the four bytes of the slot are those of the word. -/
theorem memWriteThenRead : Obligations.MemWriteThenRead := by
  intro s a v hwf hin
  refine ⟨s.setWord a.toNat v, State.memWrite32_ok hin v, ?_, fun k hk => ?_, fun x hx => State.byteAt_setWord_ne s v hx,
    rfl, rfl, rfl, rfl, rfl⟩
  · rw [State.memRead32_ok (s := s.setWord a.toNat v) hin, wordOf_byteAt, wordAt_setWord hwf]
  · rw [State.byteAt_setWord_same hwf _ _ hk, byteOf_toNat]

/-- Everything `MemWrite(a, 1, v)` can answer. -/
theorem memWrite8_cases (s : State) (a v : Word) :
    (a.toNat + 1 ≤ s.cfg.memSize ∧ s.memWrite8 a v = .ok (s.setByte a.toNat (byteOf v 0))) ∨
      (¬ a.toNat + 1 ≤ s.cfg.memSize ∧ s.memWrite8 a v = .error (.outOfBounds a 1)) := by
  by_cases h : a.toNat + 1 ≤ s.cfg.memSize
  · exact .inl ⟨h, if_pos ((State.inBounds_iff ..).2 h)⟩
  · exact .inr ⟨h, if_neg (mt (State.inBounds_iff ..).1 h)⟩

/-- Settles O35: the check is the bound itself, and the byte stored is the low byte. -/
theorem memWriteBounds : Obligations.MemWriteBounds := by
  intro s a v
  refine ⟨?_, ?_, fun t ht hwf => ?_⟩
  · obtain ⟨h, e⟩ | ⟨h, e⟩ := State.memWrite32_cases s a v
    · exact iff_of_false (by omega) (e ▸ nofun)
    · exact iff_of_true (by omega) e
  · obtain ⟨h, e⟩ | ⟨h, e⟩ := memWrite8_cases s a v
    · exact iff_of_false (by omega) (e ▸ nofun)
    · exact iff_of_true (by omega) e
  · obtain ⟨-, e⟩ | ⟨-, e⟩ := memWrite8_cases s a v
    · obtain rfl := Except.ok.inj (e.symm.trans ht)
      refine ⟨?_, fun x hx => State.byteAt_setByte_ne s _ hx⟩
      rw [State.byteAt_setByte_same _ _ hwf, byteOf_toNat, Nat.mul_zero, Nat.pow_zero, Nat.div_one]
    · cases e.symm.trans ht

/-! ## Compare -/

/-- Settles O38: both sides say that the signs of the operands differ and that of the difference is the second's. -/
theorem overflowClosedForm : Obligations.OverflowClosedForm := by
  intro a b
  have hsub : (compareValue a b).of = BitVec.ssubOverflow a b := by
    rw [compareFlags.1, cmpFlags, BitVec.ssubOverflow, Bool.eq_iff_iff]
    simp only [Bool.or_eq_true, decide_eq_true_eq]
    omega
  rw [hsub, BitVec.ssubOverflow_eq, BitVec.msb_and, BitVec.msb_xor, BitVec.msb_xor]
  cases a.msb <;> cases b.msb <;> cases (a - b).msb <;> rfl

/-- SF and OF agree exactly when the first operand is not less than the second, signed. -/
theorem cmpFlags_sf_eq_of_iff (a b : Word) : (cmpFlags a b).sf = (cmpFlags a b).of ↔ b.toInt ≤ a.toInt := by
  have ha := a.isLt
  have hb := b.isLt
  simp only [cmpFlags, BitVec.toInt_eq_toNat_cond, decide_eq_decide]
  split <;> split <;> omega

theorem cmpFlags_zf_iff (a b : Word) : (cmpFlags a b).zf = true ↔ a = b := by
  rw [cmpFlags, decide_eq_true_eq, BitVec.toNat_inj]

theorem holds_g_iff (a b : Word) : Cond.g.holds (cmpFlags a b) = true ↔ b.toInt < a.toInt := by
  have hz : (cmpFlags a b).zf = true ↔ a.toInt = b.toInt := (cmpFlags_zf_iff a b).trans BitVec.toInt_inj.symm
  rw [Cond.holds, Bool.and_eq_true, Bool.not_eq_true', ← Bool.not_eq_true, hz, beq_iff_eq, cmpFlags_sf_eq_of_iff]
  omega

/-- Settles O39: ZF is equality, SF = OF the signed order, CF the unsigned order; JNG's condition is the opposite of JG's. -/
theorem conditionsAfterCompare : Obligations.ConditionsAfterCompare := by
  intro a b
  rw [compareFlags.1]
  refine ⟨cmpFlags_zf_iff a b, ?_, holds_g_iff a b, ?_, ?_⟩
  · rw [Cond.holds, Bool.not_eq_true', ← Bool.not_eq_true, cmpFlags_zf_iff]
  · have hng : Cond.ng.holds (cmpFlags a b) = !Cond.g.holds (cmpFlags a b) := rfl
    rw [hng, Bool.not_eq_true', ← Bool.not_eq_true, holds_g_iff, not_lt]
  · rw [cmpFlags, decide_eq_true_eq]

/-! ## The launch -/

theorem load_eq_some_iff {cfg : Config} {image : List Byte} {s : State} : State.load cfg image = some s ↔
    (cfg.Wf ∧ image.length ≤ cfg.memSize) ∧ s = { State.start cfg with mem := Memory.place [] 0 image } := by
  rw [State.load, Option.ite_none_right_eq_some, and_assoc, Option.some_inj, eq_comm (a := s)]
  simp only [and_assoc]

/-- Below the place, placing an image changes nothing. -/
theorem get_place_of_lt : ∀ {bs : List Byte} {m : Memory} {a x : Nat}, x < a → (m.place a bs).get x = m.get x
  | [], _, _, _, _ => rfl
  | b :: bs, m, a, x, h => by
    rw [Memory.place, get_place_of_lt (by omega), Memory.get_set_ne (by omega)]

/-- Behind its place an image is followed by what stood there. -/
theorem get_place_of_le : ∀ {bs : List Byte} {m : Memory} {a x : Nat}, m.wf = true → a ≤ x →
    (m.place a bs).get x = bs.getD (x - a) (m.get x)
  | [], _, _, _, _, _ => rfl
  | b :: bs, m, a, x, h, hx => by
    obtain rfl | hlt : a = x ∨ a + 1 ≤ x := by omega
    · rw [Memory.place, get_place_of_lt (by omega), Memory.get_set_same h, Nat.sub_self, List.getD_cons_zero]
    · have hsub : x - a = x - (a + 1) + 1 := by omega
      rw [Memory.place, get_place_of_le (Memory.wf_set h) hlt, Memory.get_set_ne (by omega), hsub, List.getD_cons_succ]

theorem flags_word_start (cfg : Config) : (State.start cfg).flags.word = 0 := by simp [State.start, Flags.word]

theorem reg_start_toNat {cfg : Config} (h : cfg.Wf) (r : Reg) :
    ((State.start cfg).reg r).toNat = if r = .esp then cfg.memSize - 4 else 0 := by
  obtain ⟨hlo, hhi⟩ := h
  have hesp : (BitVec.ofNat 32 (cfg.memSize - 4)).toNat = cfg.memSize - 4 := by
    rw [BitVec.toNat_ofNat]
    omega
  cases r
  case esp => exact hesp
  all_goals rfl

theorem start_inv {cfg : Config} (h : cfg.Wf) : (State.start cfg).Inv := ⟨h, rfl, rfl, trivial⟩

/-- Settles O18: the state before any image meets the invariant, and the default configuration is in range. -/
theorem resetMeetsInvariant : Obligations.ResetMeetsInvariant := start_inv (by decide)

/-- Settles O19: placing an image keeps Memory's form, and its bound where the image fits. -/
theorem loadedStateMeetsInvariant : Obligations.LoadedStateMeetsInvariant := by
  intro cfg image s h
  obtain ⟨⟨hcfg, hlen⟩, rfl⟩ := load_eq_some_iff.mp h
  exact ⟨hcfg, Memory.wf_place rfl, Memory.below_place (n := cfg.memSize) (by simpa using hlen) rfl, trivial⟩

/-- Settles O20: the default configuration has MEM_SIZE 0x100000, and every other value is the start's. -/
theorem resetValues : Obligations.ResetValues := by
  refine ⟨fun r => ?_, rfl, rfl, rfl, rfl, fun a => rfl⟩
  cases r <;> rfl

/-- Settles O21: Memory holds the image from 0 on, and every other field is that of the start. -/
theorem loadedStateHoldsTheImage : Obligations.LoadedStateHoldsTheImage := by
  intro cfg image
  refine ⟨?_, fun s h => ?_⟩
  · simp only [State.load, ite_eq_right_iff, reduceCtorEq, imp_false]
    omega
  · obtain ⟨⟨hcfg, -⟩, rfl⟩ := load_eq_some_iff.mp h
    exact ⟨fun a => get_place_of_le rfl (Nat.zero_le a), rfl, rfl, rfl, flags_word_start cfg, reg_start_toNat hcfg⟩

/-- Settles O22: the four bytes lie behind the image. -/
theorem sentinelStandsAtReset : Obligations.SentinelStandsAtReset := by
  intro cfg image s h hlen
  obtain ⟨hbyte, -, -, -, -, hreg⟩ := (loadedStateHoldsTheImage cfg image).2 s h
  have hesp : (s.reg .esp).toNat = cfg.memSize - 4 := by rw [hreg, if_pos rfl]
  have hzero {x : Nat} (hx : cfg.memSize - 4 ≤ x) : s.byteAt x = 0 := by
    rw [hbyte, List.getD_eq_default _ _ (by omega)]
  refine ⟨hesp, ?_⟩
  rw [hesp, wordNat, hzero (by omega), hzero (by omega), hzero (by omega), hzero (by omega)]
  rfl

end Sys2Proof
